-- ==== Sys2Proof/Word.lean ====
section
/-!
DEFINITION. The two word types of the block: a frame byte (8 bits) and a peripheral register (`REG_WIDTH` = 32 bits);
`00_scope.md` R8, R9, R10.
-/
namespace Sys2Proof

/-- A frame byte; `00_scope.md` R10 "frame bytes are 8 bits". -/
abbrev Byte := BitVec 8

/-- A peripheral register; `00_scope.md` R8 `REG_WIDTH`. -/
abbrev Word := BitVec 32

/-- A received or transmitted frame, byte 0 (the header) first; `20_memory.md` R62. -/
abbrev Frame := List Byte

end Sys2Proof
end

