-- ==== Sys2Proof/Config.lean ====
section
/-!
DEFINITION. The implementation parameters of `00_scope.md` R8: the fixed ones with the spec's values (`REG_LAYOUT` held in
one record, as R8 asks), the OPEN ones as opaque constants that nothing can evaluate.
-/
namespace Sys2Proof

/-- The eleven status events, highest priority first (`60_exceptions.md` R205). -/
inductive Event where
  | arblst | txacke | txerr | bre | sbpe | lbpe | rxstart | rxbr | rxend | txbr | txend
  deriving DecidableEq, Repr

/-- `REG_LAYOUT`: offsets of the six registers, positions of their fields and of the status bits. -/
structure RegLayout where
  offCr : Nat
  offCfgr : Nat
  offTxdr : Nat
  offRxdr : Nat
  offIsr : Nat
  offIer : Nat
  /-- `CR.EN`. -/
  en : Nat
  /-- Lowest bit of `CFGR.SFT`. -/
  sft : Nat
  /-- `CFGR.RXTOL`. -/
  rxtol : Nat
  /-- Lowest bit of `CFGR.OAR`. -/
  oar : Nat
  /-- `CFGR.LSTN`. -/
  lstn : Nat
  /-- The implemented bits of `CR`, `CFGR`, and of `ISR` and `IER` (`EVMASK`). -/
  crMask : Word
  cfgrMask : Word
  evmask : Word
  /-- The status bits whose raise sets `TXRDY` (`60_exceptions.md` R201). -/
  readyMask : Word
  rxbr : Nat
  rxend : Nat
  bre : Nat
  sbpe : Nat
  lbpe : Nat
  arblst : Nat
  txbr : Nat
  txend : Nat
  txerr : Nat
  txacke : Nat
  rxstart : Nat
  deriving DecidableEq, Repr

namespace Config

/-- The spec's layout: `10_state.md` R30 to R37, `40_register_ops.md` R113, `60_exceptions.md` R201.
UNVERIFIED against a real part, the spec's own choice (log entry 13). unsafe: a claim about a number of this
record could be false of a part that is laid out otherwise. -/
@[reducible] def layout : RegLayout where
  offCr := 0x00
  offCfgr := 0x04
  offTxdr := 0x08
  offRxdr := 0x0C
  offIsr := 0x10
  offIer := 0x14
  en := 0
  sft := 0
  rxtol := 3
  oar := 16
  lstn := 31
  crMask := 0x00000001#32
  cfgrMask := 0xFFFF000F#32
  evmask := 0x00003BBB#32
  readyMask := 0x00001B80#32
  rxbr := 0
  rxend := 1
  bre := 3
  sbpe := 4
  lbpe := 5
  arblst := 7
  txbr := 8
  txend := 9
  txerr := 11
  txacke := 12
  rxstart := 13

/-- `EVMASK`, the eleven defined status bits; `10_state.md` R36. -/
abbrev evmask : Word := layout.evmask

/-- `MAX_FRAME`; `00_scope.md` R8. -/
abbrev maxFrame : Nat := 16

/-- `IRQ_PREEMPTS`: a pending interrupt is served before any further `HOST` step; `00_scope.md` R8, `20_memory.md` R68. -/
abbrev irqPreempts : Bool := true

/-- One less than `RXQ_CAP`, which the spec leaves OPEN (any integer at least 1); opaque, so that nothing proved
rests on a capacity. safe (log entry 1). -/
opaque rxqCapLessOne : Nat

/-- `RXQ_CAP`, the capacity of the inbound channel in frames, at least 1; `00_scope.md` R8, `10_state.md` R26. -/
def rxqCap : Nat := rxqCapLessOne + 1

/-- `CEC_BASE`, the base address of the register block, which the spec leaves OPEN; no rule depends on it
(`00_scope.md` R8). safe (log entry 2). -/
opaque cecBase : Nat

end Config
end Sys2Proof
end

