-- ==== Sys2Proof/Syntax.lean ====
section
/-!
DEFINITION. The operations that step the block, one constructor of `Instr` per row of `spec/opcode_table.json`
(`30_encoding.md` R80 to R89), the operands they carry, and the three forms their bytes come in.
-/
namespace Sys2Proof

/-- Bit-timing tolerance mode; `10_state.md` R44. -/
inductive Tolerance where
  | standard | extended
  deriving DecidableEq, Repr

/-- A Configuration, the operand of `ARM`; `10_state.md` R44, `30_encoding.md` R82. -/
structure Configuration where
  /-- Own address: `none` is unassigned; a value above 15 is out of range and rejected by `ARM`. -/
  own : Option Byte
  /-- The set of additional addresses: bit `a` set means `a` is in the set. -/
  extra : BitVec 16
  tol : Tolerance
  /-- Signal-free-time mode, opaque to the block. -/
  sft : BitVec 3
  listen : Bool
  deriving DecidableEq, Repr

/-- An operation of the block. An `E` row's constructor carries the word's whole set of status bits `w[15:0]` (its own
bit among them) and the received byte `w[23:16]`; an `R` write carries its 32-bit data. -/
inductive Instr where
  | arm (cfg : Configuration)
  | disarm
  | transmit (frame : Frame)
  | txwait
  | receive
  | lastError
  | rxbr (bits : BitVec 16) (rxd : Byte)
  | rxend (bits : BitVec 16) (rxd : Byte)
  | bre (bits : BitVec 16) (rxd : Byte)
  | sbpe (bits : BitVec 16) (rxd : Byte)
  | lbpe (bits : BitVec 16) (rxd : Byte)
  | arblst (bits : BitVec 16) (rxd : Byte)
  | txbr (bits : BitVec 16) (rxd : Byte)
  | txend (bits : BitVec 16) (rxd : Byte)
  | txerr (bits : BitVec 16) (rxd : Byte)
  | txacke (bits : BitVec 16) (rxd : Byte)
  | rxstart (bits : BitVec 16) (rxd : Byte)
  | rdCr
  | wrCr (v : Word)
  | rdCfgr
  | wrCfgr (v : Word)
  | rdTxdr
  | wrTxdr (v : Word)
  | rdRxdr
  | wrRxdr (v : Word)
  | rdIsr
  | wrIsr (v : Word)
  | rdIer
  | wrIer (v : Word)
  deriving DecidableEq, Repr

/-- The agent that issues an operation (`00_scope.md` R4), or `reg` for a register access taken by itself
(`40_register_ops.md` R110, log entry 10). `seq` issues no encoded operation: it takes sequencer invocations. -/
inductive Agent where
  | host | line | seq | reg
  deriving DecidableEq, Repr

/-- An operation as it is encoded; `30_encoding.md` R80. -/
inductive Wire where
  /-- Format `H`: a command byte string, R81. -/
  | host (bytes : List Byte)
  /-- Format `E`: an event word `rxd :: bits`, R86. -/
  | line (word : BitVec 24)
  /-- Format `R`: a header byte and, for a write, four data bytes, most significant first, R88. -/
  | reg (bytes : List Byte)
  deriving DecidableEq, Repr

/-- Why a decoder refuses; `30_encoding.md` R92, `60_exceptions.md` R215. -/
inductive Reject where
  | illegalCommand | illegalEvent | badRegisterAccess
  deriving DecidableEq, Repr

/-- The six peripheral registers; `10_state.md` R30. -/
inductive Reg where
  | cr | cfgr | txdr | rxdr | isr | ier
  deriving DecidableEq, Repr

end Sys2Proof
end

