-- ==== Sys2Proof/Decode.lean ====
section
/-!
DEFINITION. The decoders of the three formats (`30_encoding.md` R81 to R94), each total on any bytes and rejecting by name,
the encoder written from the same tables, and the table words of `spec/opcode_table.json`.
-/
namespace Sys2Proof

/-- The position of an event's bit in `ISR`, `IER` and in an `E` word; `10_state.md` R36. -/
def Event.bit : Event → Nat
  | .arblst => Config.layout.arblst
  | .txacke => Config.layout.txacke
  | .txerr => Config.layout.txerr
  | .bre => Config.layout.bre
  | .sbpe => Config.layout.sbpe
  | .lbpe => Config.layout.lbpe
  | .rxstart => Config.layout.rxstart
  | .rxbr => Config.layout.rxbr
  | .rxend => Config.layout.rxend
  | .txbr => Config.layout.txbr
  | .txend => Config.layout.txend

/-- Every event, highest priority first; `60_exceptions.md` R205. -/
def Event.all : List Event :=
  [.arblst, .txacke, .txerr, .bre, .sbpe, .lbpe, .rxstart, .rxbr, .rxend, .txbr, .txend]

/-- The highest-priority event of a set of status bits. -/
def firstEvent (bits : BitVec 16) : Option Event :=
  Event.all.find? fun e => bits.getLsbD e.bit

/-- A legal event word: a nonempty set of defined bits, and a received byte only with `RXBR`; `30_encoding.md` R92. -/
def legalEvent (bits : BitVec 16) (rxd : Byte) : Bool :=
  bits != 0#16 && (bits &&& ~~~(Config.evmask.setWidth 16)) == 0#16 && (rxd == 0#8 || bits.getLsbD Event.rxbr.bit)

/-- The byte offset of a register; `10_state.md` R30. -/
def Reg.offset : Reg → Nat
  | .cr => Config.layout.offCr
  | .cfgr => Config.layout.offCfgr
  | .txdr => Config.layout.offTxdr
  | .rxdr => Config.layout.offRxdr
  | .isr => Config.layout.offIsr
  | .ier => Config.layout.offIer

/-- The six registers; `10_state.md` R30. -/
def Reg.all : List Reg := [.cr, .cfgr, .txdr, .rxdr, .isr, .ier]

/-- The register at a byte offset, if there is one; `20_memory.md` R64. -/
def Reg.ofOffset (off : Nat) : Option Reg := Reg.all.find? fun r => r.offset == off

/-- The read of a register; `30_encoding.md` R89. -/
def Instr.read : Reg → Instr
  | .cr => .rdCr
  | .cfgr => .rdCfgr
  | .txdr => .rdTxdr
  | .rxdr => .rdRxdr
  | .isr => .rdIsr
  | .ier => .rdIer

/-- The write of a register; `30_encoding.md` R89. -/
def Instr.write : Reg → Word → Instr
  | .cr, v => .wrCr v
  | .cfgr, v => .wrCfgr v
  | .txdr, v => .wrTxdr v
  | .rxdr, v => .wrRxdr v
  | .isr, v => .wrIsr v
  | .ier, v => .wrIer v

/-- The `E` row of an event, with a word's contents; `30_encoding.md` R87. -/
def Instr.ofEvent : Event → BitVec 16 → Byte → Instr
  | .arblst, b, x => .arblst b x
  | .txacke, b, x => .txacke b x
  | .txerr, b, x => .txerr b x
  | .bre, b, x => .bre b x
  | .sbpe, b, x => .sbpe b x
  | .lbpe, b, x => .lbpe b x
  | .rxstart, b, x => .rxstart b x
  | .rxbr, b, x => .rxbr b x
  | .rxend, b, x => .rxend b x
  | .txbr, b, x => .txbr b x
  | .txend, b, x => .txend b x

/-- The four operand bytes `oa eh el fl` of `ARM`; `30_encoding.md` R82, R92. -/
def decodeArm : List Byte → Except Reject (Instr × List Byte)
  | oa :: eh :: el :: fl :: rest =>
    if fl.extractLsb' 5 3 = 0#3 then
      .ok (.arm {
        own := if oa = 0xFF#8 then none else some oa
        extra := eh ++ el
        tol := if fl.getLsbD 1 then .extended else .standard
        sft := fl.extractLsb' 2 3
        listen := fl.getLsbD 0 }, rest)
    else .error .illegalCommand
  | _ => .error .illegalCommand

/-- The operands `len b0 .. b(len-1)` of `TRANSMIT`; `30_encoding.md` R83, R92. -/
def decodeTransmit : List Byte → Except Reject (Instr × List Byte)
  | len :: rest =>
    if rest.length < len.toNat then .error .illegalCommand
    else .ok (.transmit (rest.take len.toNat), rest.drop len.toNat)
  | [] => .error .illegalCommand

/-- Format `H`: the command at the head of a byte string, and the bytes after it; `30_encoding.md` R81, R84, R92, R94. -/
def decodeHost : List Byte → Except Reject (Instr × List Byte)
  | [] => .error .illegalCommand
  | op :: rest =>
    if op = 0x01#8 then decodeArm rest
    else if op = 0x02#8 then .ok (.disarm, rest)
    else if op = 0x03#8 then decodeTransmit rest
    else if op = 0x04#8 then .ok (.txwait, rest)
    else if op = 0x05#8 then .ok (.receive, rest)
    else if op = 0x06#8 then .ok (.lastError, rest)
    else .error .illegalCommand

/-- Format `E`: an event word `rxd[7:0] :: bits[15:0]`; `30_encoding.md` R86, R87, R92. The row is that of the word's
highest-priority event: DESIGN CHOICE, safe (log entry 9): the rows of one word have one effect, R201. -/
def decodeEvent (w : BitVec 24) : Except Reject Instr :=
  let bits := w.setWidth 16
  let rxd := w.extractLsb' 16 8
  if legalEvent bits rxd then
    match firstEvent bits with
    | some e => .ok (Instr.ofEvent e bits rxd)
    | none => .error .illegalEvent
  else .error .illegalEvent

/-- The 32-bit data of a write, most significant byte first, as the eight hexadecimal digits of `30_encoding.md` R88
are written: DEDUCED, safe (log entry 17). -/
def decodeWrite (r : Reg) : List Byte → Except Reject (Instr × List Byte)
  | b3 :: b2 :: b1 :: b0 :: rest => .ok (Instr.write r (b3 ++ b2 ++ b1 ++ b0), rest)
  | _ => .error .badRegisterAccess

/-- Format `R`: a header `w :: 00 :: off[4:0]` and, for a write, its data; `30_encoding.md` R88, R89, R92,
`40_register_ops.md` R123. -/
def decodeAccess : List Byte → Except Reject (Instr × List Byte)
  | [] => .error .badRegisterAccess
  | hdr :: rest =>
    if hdr.extractLsb' 5 2 = 0#2 then
      match Reg.ofOffset (hdr.extractLsb' 0 5).toNat with
      | none => .error .badRegisterAccess
      | some r => if hdr.getLsbD 7 then decodeWrite r rest else .ok (Instr.read r, rest)
    else .error .badRegisterAccess

/-- The operation at the head of what an agent presents, and the bytes after it; `30_encoding.md` R80. -/
def decode : Wire → Except Reject (Instr × List Byte)
  | .host bs => decodeHost bs
  | .line w => (decodeEvent w).map fun i => (i, [])
  | .reg bs => decodeAccess bs

/-- The byte `fl` of `ARM`: `000 :: sft :: tol :: listen`; `30_encoding.md` R82. -/
def encodeFl (cfg : Configuration) : Byte :=
  0#3 ++ cfg.sft ++ BitVec.ofBool (cfg.tol == .extended) ++ BitVec.ofBool cfg.listen

/-- The bytes of `ARM`; `30_encoding.md` R82. -/
def encodeArm (cfg : Configuration) : List Byte :=
  [0x01#8, cfg.own.getD 0xFF#8, cfg.extra.extractLsb' 8 8, cfg.extra.extractLsb' 0 8, encodeFl cfg]

/-- The bytes of `TRANSMIT`; `30_encoding.md` R83. -/
def encodeTransmit (f : Frame) : List Byte := 0x03#8 :: BitVec.ofNat 8 f.length :: f

/-- An event word; `30_encoding.md` R86. -/
def encodeEvent (bits : BitVec 16) (rxd : Byte) : BitVec 24 := rxd ++ bits

/-- The header of a read; `30_encoding.md` R88. -/
def encodeRead (r : Reg) : List Byte := [0#1 ++ 0#2 ++ BitVec.ofNat 5 r.offset]

/-- The header of a write and its data; `30_encoding.md` R88. -/
def encodeWrite (r : Reg) (v : Word) : List Byte :=
  [1#1 ++ 0#2 ++ BitVec.ofNat 5 r.offset,
   v.extractLsb' 24 8, v.extractLsb' 16 8, v.extractLsb' 8 8, v.extractLsb' 0 8]

/-- The encoding of a well-formed operation; `30_encoding.md` R82 to R89. -/
def encode : Instr → Wire
  | .arm cfg => .host (encodeArm cfg)
  | .disarm => .host [0x02#8]
  | .transmit f => .host (encodeTransmit f)
  | .txwait => .host [0x04#8]
  | .receive => .host [0x05#8]
  | .lastError => .host [0x06#8]
  | .rxbr b x => .line (encodeEvent b x)
  | .rxend b x => .line (encodeEvent b x)
  | .bre b x => .line (encodeEvent b x)
  | .sbpe b x => .line (encodeEvent b x)
  | .lbpe b x => .line (encodeEvent b x)
  | .arblst b x => .line (encodeEvent b x)
  | .txbr b x => .line (encodeEvent b x)
  | .txend b x => .line (encodeEvent b x)
  | .txerr b x => .line (encodeEvent b x)
  | .txacke b x => .line (encodeEvent b x)
  | .rxstart b x => .line (encodeEvent b x)
  | .rdCr => .reg (encodeRead .cr)
  | .wrCr v => .reg (encodeWrite .cr v)
  | .rdCfgr => .reg (encodeRead .cfgr)
  | .wrCfgr v => .reg (encodeWrite .cfgr v)
  | .rdTxdr => .reg (encodeRead .txdr)
  | .wrTxdr v => .reg (encodeWrite .txdr v)
  | .rdRxdr => .reg (encodeRead .rxdr)
  | .wrRxdr v => .reg (encodeWrite .rxdr v)
  | .rdIsr => .reg (encodeRead .isr)
  | .wrIsr v => .reg (encodeWrite .isr v)
  | .rdIer => .reg (encodeRead .ier)
  | .wrIer v => .reg (encodeWrite .ier v)

/-- The first `n` bytes of a table word, bits 7:0 first. -/
def tableBytes : Nat → Nat → List Byte
  | 0, _ => []
  | n + 1, w => BitVec.ofNat 8 w :: tableBytes n (w / 256)

/-- How a table word of `nbits` bits is presented to the block. A word of 24 bits is an `E` word, and so is one of
16 bits that is not a `TRANSMIT`; any other word is a byte string, a command where its first byte is an `H` opcode and
else a register access. The formats share no tag, so a one-byte word `0x04` could be `TXWAIT` or the header of `RD.CFGR`:
it is taken as the command, which an agent issues (`40_register_ops.md` R110). DESIGN CHOICE, safe (log entry 16).
The bits above `nbits` are 0, for as many bytes as the longest operation has. -/
def tableWire (nbits w : Nat) : Wire :=
  let op := w % 256
  if nbits = 24 ∨ (nbits = 16 ∧ op ≠ 3) then .line (BitVec.ofNat 24 w)
  else
    let bytes := tableBytes ((nbits + 7) / 8) w ++ List.replicate 257 0#8
    if 1 ≤ op ∧ op ≤ 6 then .host bytes else .reg bytes

/-- The table word cut to the one operation it holds (the encoding of what the decoder reads from it); what does not
decode stays as it is, and is refused by name when it is fetched. -/
def tableOperation (nbits w : Nat) : Wire :=
  match decode (tableWire nbits w) with
  | .ok (i, _) => encode i
  | .error _ => tableWire nbits w

/-- The operation the decoder reads from a word numbered as `spec/opcode_table.json` numbers it. -/
def decodeTableWord (nbits w : Nat) : Option Instr :=
  match decode (tableWire nbits w) with
  | .ok (i, _) => some i
  | .error _ => none

end Sys2Proof
end

