-- ==== Sys2Proof/Machine/State.lean ====
section
/-!
DEFINITION. The state of the block as plain data: the whole architectural state of `10_state.md` R20, the spec's recorded
faults (`00_scope.md` R10), and the model's own fields (labels, results, and the inputs of the step relation that R20 names).
-/
namespace Sys2Proof.Machine

/-- The three stored values of the state register `st`; `10_state.md` R21. -/
inductive SeqState where
  | idle | receiving | transmitting
  deriving DecidableEq, Repr

/-- RxState `rx`; `10_state.md` R23. `buf` holds the valid bytes `rx.buf[0 .. count-1]` in the order received: the bytes
at `count` and above are unspecified and no rule reads them (R142, U10), so they are not stored. DEDUCED, safe (log entry 11). -/
structure RxState where
  buf : List Byte
  matched : Bool
  deriving DecidableEq, Repr

/-- The sub-states of a transmit; `10_state.md` R24, `43_transmit_events.md` R169. -/
inductive TxSub where
  | waitSFT | byteInFlight | complete | errored
  deriving DecidableEq, Repr

/-- TxState `tx`; `10_state.md` R24. `frame` holds the frame's bytes, `tx.len` is its length. -/
structure TxState where
  frame : Frame
  idx : Nat
  sub : TxSub
  deriving DecidableEq, Repr

/-- The state register with the buffer that is live in it: `rx` exactly while `Receiving`, `tx` exactly while
`Transmitting` (`10_state.md` R23, R24, R25). -/
inductive Phase where
  | idle
  | receiving (rx : RxState)
  | transmitting (tx : TxState)
  deriving DecidableEq, Repr

/-- `BusErrorKind`, the closed set of six; `60_exceptions.md` R210. -/
inductive BusErrorKind where
  | bitRisingError | shortBitPeriodError | longBitPeriodError | arbitrationLost | ackFailure | lineError
  deriving DecidableEq, Repr

/-- The error kinds of a transmit; `43_transmit_events.md` R166 to R168. -/
inductive TxErrorKind where
  | arbitrationLost | ackFailure | lineError
  deriving DecidableEq, Repr

/-- The outcomes the completion slot can hold: `Ok`, `Err(kind)`, `Err(Aborted)`; `10_state.md` R27. -/
inductive TxOutcome where
  | ok
  | err (kind : TxErrorKind)
  | aborted
  deriving DecidableEq, Repr

/-- The observation labels; `00_scope.md` R12. -/
inductive Label where
  | rxDelivered (f : Frame)
  | rxDropOldest (f : Frame)
  | frameIgnored
  | receiveFailed (kind : BusErrorKind)
  | txSucceeded
  | txFailed (kind : BusErrorKind)
  | txAborted
  | txByte (b : Byte)
  deriving DecidableEq, Repr

/-- The spec's faults: marks that a step records and that do not stop the machine; `00_scope.md` R10, `60_exceptions.md` R214. -/
inductive RecordedFault where
  /-- The `LINE` agent presented an event the source gives no transition for in this state. -/
  | protocolViolation (st : SeqState) (bit : Event)
  /-- `TXDR` was written with `TXRDY = 0`. -/
  | txDataNotReady
  /-- `CFGR` was written with `EN = 1`. -/
  | configWriteWhileArmed
  deriving DecidableEq, Repr

/-- What an operation returns. -/
inductive Answer where
  /-- The result byte string `code ++ payload` of an `H` command; `30_encoding.md` R85. -/
  | host (bytes : List Byte)
  /-- The 32 bits an `R` read returns; `30_encoding.md` R88. -/
  | reg (v : Word)
  deriving DecidableEq, Repr

/-- Why a step stops with a fault. The spec's own faults do not stop the machine: they are `RecordedFault`. -/
inductive Fault where
  /-- Raised by the meaning of every `E` row while `CR.EN = 0`: the `LINE` agent has no step (`60_exceptions.md` R201,
  `93_implementation_defined.md` U17 `stuck`). `step` never answers it: it leaves the word untaken. safe. -/
  | lineHasNoStep
  deriving DecidableEq, Repr

/-- Why a step is refused; `60_exceptions.md` R215. Nothing changes. -/
inductive Refusal where
  /-- Raised by `exec` for an operation that has no meaning yet. safe. -/
  | notModelled (mnemonic : String)
  /-- Raised by `ARM` while `CR.EN = 1`; R131, R215. safe. -/
  | alreadyArmed
  /-- Raised by `TRANSMIT` of a valid frame while `CR.EN = 0`; R162, R215. safe. -/
  | notArmed
  /-- Raised by `TXWAIT` with `tx_done` empty and no transmit in progress; R182, R215. safe. -/
  | noTransmitToCollect
  /-- Raised by the fetch of a host command that does not decode; R92, R215. safe. -/
  | illegalCommand
  /-- Raised by the fetch of an event word that does not decode, and by the meaning of an `E` row whose word is not
  legal; R92, R201, R215. safe. -/
  | illegalEvent
  /-- Raised by the fetch of a register access that does not decode, and by `memRead` and `memWrite`; R64, R123, R215. safe. -/
  | badRegisterAccess
  deriving DecidableEq, Repr

/-- The state of the machine. -/
structure State where
  /-- `CR`, Control; `10_state.md` R31. -/
  cr : Word
  /-- `CFGR`, Configuration; R32. -/
  cfgr : Word
  /-- `TXDR`, Tx-Data; R33. -/
  txdr : Word
  /-- `RXDR`, Rx-Data; R34. -/
  rxdr : Word
  /-- `ISR`, Interrupt-Status; R35, R36. -/
  isr : Word
  /-- `IER`, Interrupt-Enable; R37. -/
  ier : Word
  /-- `TXRDY`, hidden; R42. -/
  txrdy : Bool
  /-- `st` with the live `rx` or `tx`; R21, R23, R24. -/
  phase : Phase
  /-- `rxq`, the inbound channel, oldest frame first; R26. -/
  rxq : List Frame
  /-- `tx_done`, the completion slot; R27. -/
  txDone : Option TxOutcome
  /-- `last_error`; R28. -/
  lastError : Option BusErrorKind
  /-- The recorded faults, oldest first; `60_exceptions.md` R214. -/
  faults : List RecordedFault
  /-- The model's own: the labels emitted, oldest first (log entry 15). -/
  trace : List Label
  /-- The model's own: the results returned, oldest first (log entry 15). -/
  results : List Answer
  /-- The model's own: the agents that step next (log entry 3). -/
  turns : List Agent
  /-- The model's own: the bytes of the commands `HOST` has issued and that are not complete, oldest first (log entries 3, 25). -/
  hostIn : List Byte
  /-- The model's own: the event words `LINE` has still to raise (log entry 3). -/
  lineIn : List (BitVec 24)
  /-- The model's own: the bytes of register accesses to be taken by themselves (log entry 3). -/
  regIn : List Byte
  deriving DecidableEq, Repr

/-- The state after reset; `10_state.md` R47. The model's own fields are empty: DESIGN CHOICE (log entries 3, 15). -/
def State.reset : State where
  cr := 0x00000000#32
  cfgr := 0x00000000#32
  txdr := 0x00000000#32
  rxdr := 0x00000000#32
  isr := 0x00000000#32
  ier := 0x00000000#32
  txrdy := false
  phase := .idle
  rxq := []
  txDone := none
  lastError := none
  faults := []
  trace := []
  results := []
  turns := []
  hostIn := []
  lineIn := []
  regIn := []

end Sys2Proof.Machine
end

