-- ==== Sys2Proof/Machine/Operands.lean ====
section
/-!
DEFINITION. Operand assembly (`30_encoding.md` R91): the names and numbers of the states, the packing of a Configuration
into `CFGR`, the acceptance predicate, header nibbles, result codes.
-/
namespace Sys2Proof.Machine

/-- The value of the state register; `10_state.md` R21, R22. -/
def Phase.st : Phase → SeqState
  | .idle => .idle
  | .receiving _ => .receiving
  | .transmitting _ => .transmitting

/-- `st`; `10_state.md` R21. -/
def State.st (s : State) : SeqState := s.phase.st

/-- The stored encoding of `st`; `10_state.md` R21. -/
def SeqState.code : SeqState → BitVec 2
  | .idle => 0#2
  | .receiving => 1#2
  | .transmitting => 2#2

/-- `rx.count`; `10_state.md` R23. -/
def RxState.count (rx : RxState) : Nat := rx.buf.length

/-- `tx.len`; `10_state.md` R24. -/
def TxState.len (tx : TxState) : Nat := tx.frame.length

/-- The stored encoding of `tx.sub`; `10_state.md` R24. -/
def TxSub.code : TxSub → BitVec 2
  | .waitSFT => 0#2
  | .byteInFlight => 1#2
  | .complete => 2#2
  | .errored => 3#2

/-- `dst(h) = h[3:0]`; `20_memory.md` R62, `30_encoding.md` R90. -/
def dst (h : Byte) : BitVec 4 := h.extractLsb' 0 4

/-- `src(h) = h[7:4]`; `20_memory.md` R62, `30_encoding.md` R90. -/
def src (h : Byte) : BitVec 4 := h.extractLsb' 4 4

/-- `v[7:0]`; `00_scope.md` R9. -/
def lowByte (v : Word) : Byte := v.extractLsb' 0 8

/-- `zext_32` of a byte; `00_scope.md` R10. -/
def zextByte (b : Byte) : Word := b.setWidth 32

/-- The address bits of a Configuration: the additional addresses and the own address, 15 contributing none;
`10_state.md` R45. -/
def oarOf (cfg : Configuration) : BitVec 15 :=
  cfg.extra.setWidth 15 |||
    match cfg.own with
    | some a => if a.toNat ≤ 14 then 1#15 <<< a.toNat else 0#15
    | none => 0#15

/-- `encode(cfg)`, the value `ARM` writes to `CFGR`; `10_state.md` R45. -/
def encodeCfg (cfg : Configuration) : Word :=
  ((BitVec.ofBool cfg.listen).setWidth 32 <<< Config.layout.lstn) |||
  ((oarOf cfg).setWidth 32 <<< Config.layout.oar) |||
  ((BitVec.ofBool (cfg.tol == .extended)).setWidth 32 <<< Config.layout.rxtol) |||
  (cfg.sft.setWidth 32 <<< Config.layout.sft)

/-- `accept(d)` on a stored `CFGR`; `10_state.md` R46, `90_conflicts.md` C2. -/
def accept (cfgr : Word) (d : BitVec 4) : Bool :=
  cfgr.getLsbD Config.layout.lstn || d == 15#4 || (decide (d.toNat ≤ 14) && cfgr.getLsbD (Config.layout.oar + d.toNat))

/-- The own address is above 15; `41_init_teardown.md` R134. -/
def ownOutOfRange (cfg : Configuration) : Bool :=
  match cfg.own with
  | some a => decide (15 < a.toNat)
  | none => false

/-- The result code of an error kind; `30_encoding.md` R98, `60_exceptions.md` R210. -/
def BusErrorKind.code : BusErrorKind → Byte
  | .bitRisingError => 0x11#8
  | .shortBitPeriodError => 0x12#8
  | .longBitPeriodError => 0x13#8
  | .arbitrationLost => 0x14#8
  | .ackFailure => 0x15#8
  | .lineError => 0x16#8

/-- A transmit error as the `BusErrorKind` it is; `60_exceptions.md` R210. -/
def TxErrorKind.kind : TxErrorKind → BusErrorKind
  | .arbitrationLost => .arbitrationLost
  | .ackFailure => .ackFailure
  | .lineError => .lineError

/-- The result code of a transmit outcome; `30_encoding.md` R98, `44_host_api.md` R182. -/
def TxOutcome.code : TxOutcome → Byte
  | .ok => 0x00#8
  | .err k => k.kind.code
  | .aborted => 0x17#8

/-- The result code of `LAST_ERROR`; `30_encoding.md` R98, `44_host_api.md` R184. -/
def lastErrorCode : Option BusErrorKind → Byte
  | none => 0x00#8
  | some k => k.code

/-- `Ok`, `Accepted`; `30_encoding.md` R98. -/
def codeOk : Byte := 0x00#8
/-- `ConfigurationInvalid`; `30_encoding.md` R98, `60_exceptions.md` R211. -/
def codeConfigurationInvalid : Byte := 0x01#8
/-- `InvalidFrame`; `30_encoding.md` R98, `60_exceptions.md` R211. -/
def codeInvalidFrame : Byte := 0x02#8
/-- `Busy`; `30_encoding.md` R98, `60_exceptions.md` R211. -/
def codeBusy : Byte := 0x03#8

/-- The result of a successful `RECEIVE`: `00 len b0 .. b(len-1)`; `30_encoding.md` R85. -/
def receiveResult (f : Frame) : List Byte := codeOk :: BitVec.ofNat 8 f.length :: f

/-- The refusal a decoder's rejection is; `60_exceptions.md` R215. -/
def refusalOf : Reject → Refusal
  | .illegalCommand => .illegalCommand
  | .illegalEvent => .illegalEvent
  | .badRegisterAccess => .badRegisterAccess

end Sys2Proof.Machine
end

