-- ==== Sys2Proof/Machine/Flags.lean ====
section
/-!
DEFINITION. The conditions that are functions of the state: the interrupt line, the enabling of the three agents, the
events a sequencer invocation takes, `in_flight`, `tx_last`.
-/
namespace Sys2Proof.Machine

/-- Armed: `x[CR][0] = 1`; `00_scope.md` R14. -/
def armed (s : State) : Bool := s.cr.getLsbD Config.layout.en

/-- `irq = ((x[ISR] & x[IER]) != 0)`; `10_state.md` R38, `60_exceptions.md` R203. -/
def irq (s : State) : Bool := (s.isr &&& s.ier) != 0#32

/-- A `HOST` step is enabled only when `irq = 0`; `20_memory.md` R68, `60_exceptions.md` R216. -/
def hostEnabled (s : State) : Bool := !(Config.irqPreempts && irq s)

/-- A `LINE` raise is enabled whenever `x[CR][0] = 1`; `20_memory.md` R68, `60_exceptions.md` R201. -/
def lineEnabled (s : State) : Bool := armed s

/-- The events taken by a sequencer invocation, pending and enabled; `60_exceptions.md` R204. -/
def eventsTaken (s : State) : Word := s.isr &&& s.ier &&& Config.evmask

/-- The bit of an event in a set of status bits. -/
def hasEvent (w : Word) (e : Event) : Bool := w.getLsbD e.bit

/-- `in_flight = (st = Transmitting) or (tx_done is not empty)`; `43_transmit_events.md` R162. -/
def inFlight (s : State) : Bool := s.st == .transmitting || s.txDone.isSome

/-- `tx_last`, what a model of the `LINE` agent may look at; `43_transmit_events.md` R171. -/
def txLast (s : State) : Bool :=
  match s.phase with
  | .transmitting tx => tx.idx == tx.len
  | _ => false

/-- A command that waits for another agent when `irq = 0`: `TXWAIT` while the transmit runs, `RECEIVE` while the channel
is empty; `60_exceptions.md` R216. -/
def waits (i : Instr) (s : State) : Bool :=
  match i with
  | .txwait => s.txDone.isNone && s.st == .transmitting
  | .receive => s.rxq.isEmpty
  | _ => false

/-- Quiescent: `irq = 0` and no `HOST` command outstanding; `00_scope.md` R12. -/
def quiescent (s : State) : Bool := !irq s && s.hostIn.isEmpty

end Sys2Proof.Machine
end

