-- ==== Sys2Proof/Machine/Ops.lean ====
section
/-!
DEFINITION. The named operations every meaning is made of: the model-level marks, the register accesses with their side
effects (`40_register_ops.md`), the `LINE` agent's raise, the entry of the sequencer (this block's trap entry), and the
shared transitions `deliver`, `rx_error`, `tx_error`.
-/
namespace Sys2Proof.Machine

/-- `raise X(info)`: record a fault and go on; `00_scope.md` R10. -/
def record (f : RecordedFault) (s : State) : State := { s with faults := s.faults ++ [f] }

/-- `raise ProtocolViolation(st, bit)`: the event is ignored; `60_exceptions.md` R214. -/
def violation (e : Event) (s : State) : State := record (.protocolViolation s.st e) s

/-- `emit L`; `00_scope.md` R10. -/
def emit (l : Label) (s : State) : State := { s with trace := s.trace ++ [l] }

/-- Return a result. -/
def answer (a : Answer) (s : State) : State := { s with results := s.results ++ [a] }

/-- Return a result code without payload; `30_encoding.md` R85. -/
def answerCode (c : Byte) (s : State) : State := answer (.host [c]) s

/-- `st <- S` with the buffer that is live in it; `00_scope.md` R10. -/
def setPhase (p : Phase) (s : State) : State := { s with phase := p }

/-- `tx.sub <- x`, while a transmit is live; `43_transmit_events.md` R163 to R165. -/
def setSub (x : TxSub) (s : State) : State :=
  match s.phase with
  | .transmitting tx => setPhase (.transmitting { tx with sub := x }) s
  | _ => s

/-- `WR.CR`: only `EN` is stored; a rising `EN` makes the transmit side ready, a clear one makes it not ready;
`40_register_ops.md` R111. -/
def writeCr (v : Word) (s : State) : State :=
  { s with
    cr := v &&& Config.layout.crMask
    txrdy := if v.getLsbD Config.layout.en then (if armed s then s.txrdy else true) else false }

/-- `WR.CFGR`: stored only while disarmed; `40_register_ops.md` R113. -/
def writeCfgr (v : Word) (s : State) : State :=
  if armed s then record .configWriteWhileArmed s else { s with cfgr := v &&& Config.layout.cfgrMask }

/-- `WR.TXDR`: the byte is stored and handed to the `LINE` agent, if the peripheral is ready; `40_register_ops.md` R115. -/
def writeTxdr (v : Word) (s : State) : State :=
  if s.txrdy then emit (.txByte (lowByte v)) { s with txdr := zextByte (lowByte v), txrdy := false }
  else record .txDataNotReady s

/-- `WR.RXDR`: no effect; `40_register_ops.md` R122. -/
def writeRxdr (_v : Word) (s : State) : State := s

/-- `WR.ISR`: write-1-to-clear; `40_register_ops.md` R117. -/
def writeIsr (v : Word) (s : State) : State := { s with isr := s.isr &&& ~~~(v &&& Config.evmask) }

/-- `WR.IER`; `40_register_ops.md` R118. -/
def writeIer (v : Word) (s : State) : State := { s with ier := v &&& Config.evmask }

/-- The write of a register, with its side effects; `20_memory.md` R66. -/
def writeReg : Reg → Word → State → State
  | .cr => writeCr
  | .cfgr => writeCfgr
  | .txdr => writeTxdr
  | .rxdr => writeRxdr
  | .isr => writeIsr
  | .ier => writeIer

/-- The value a read of a register returns: no read changes any state, `TXDR` reads 0, `RXDR` its low byte;
`40_register_ops.md` R112, R114, R116, R119, R120, R121. -/
def readReg : Reg → State → Word
  | .cr, s => s.cr
  | .cfgr, s => s.cfgr
  | .txdr, _ => 0#32
  | .rxdr, s => zextByte (lowByte s.rxdr)
  | .isr, s => s.isr
  | .ier, s => s.ier

/-- The byte address of a register; `20_memory.md` R60. No rule depends on it. -/
def regAddress (r : Reg) : Nat := Config.cecBase + r.offset

/-- `MemRead(off, width)`: 32-bit reads at the six offsets and nothing else; `00_scope.md` R10, `20_memory.md` R64. -/
def memRead (off width : Nat) (s : State) : Except Refusal Word :=
  match Reg.ofOffset off with
  | some r => if width = 4 then .ok (readReg r s) else .error .badRegisterAccess
  | none => .error .badRegisterAccess

/-- `MemWrite(off, width, v)`: 32-bit writes at the six offsets and nothing else; `00_scope.md` R10, `20_memory.md` R64. -/
def memWrite (off width : Nat) (v : Word) (s : State) : Except Refusal State :=
  match Reg.ofOffset off with
  | some r => if width = 4 then .ok (writeReg r v s) else .error .badRegisterAccess
  | none => .error .badRegisterAccess

/-- The state after `LINE.raise`: the bits are set whatever `IER` and `st` are, `RXBR` brings its byte, the five transmit
bits make the peripheral ready; `60_exceptions.md` R201. -/
def raised (bits : BitVec 16) (rxd : Byte) (s : State) : State :=
  { s with
    isr := s.isr ||| bits.setWidth 32
    rxdr := if bits.getLsbD Event.rxbr.bit then zextByte rxd else s.rxdr
    txrdy := if (bits.setWidth 32 &&& Config.layout.readyMask) != 0#32 then true else s.txrdy }

/-- `LINE.raise(w)` with its guard: while `EN = 0` the `LINE` agent has no step, and a word that is not legal is no
operation; `60_exceptions.md` R201, `30_encoding.md` R92, `93_implementation_defined.md` U17 (log entry 8). -/
def lineRaise (bits : BitVec 16) (rxd : Byte) (s : State) : Host.Outcome State Fault Refusal :=
  if !lineEnabled s then .fault .lineHasNoStep
  else if !legalEvent bits rxd then .refused .illegalEvent
  else .next (raised bits rxd s)

/-- A `HOST` step: one atomic step while `irq = 0`; while `irq = 1` the command waits and nothing changes;
`20_memory.md` R68, `60_exceptions.md` R216 (log entry 5). -/
def hostStep (k : State → Host.Outcome State Fault Refusal) (s : State) : Host.Outcome State Fault Refusal :=
  if hostEnabled s then k s else .next s

/-- The entry of the sequencer, this block's trap entry: the snapshot of `ISR` is read and exactly the events taken are
cleared; entry saves nothing; `60_exceptions.md` R204. -/
def takeInterrupt (s : State) : Word × State :=
  (eventsTaken s, writeIsr (eventsTaken s) s)

/-- The end of an invocation, this block's return from the trap: there is no return operation and nothing to restore;
`60_exceptions.md` R207. -/
def returnFromInterrupt (s : State) : State := s

/-- `deliver(f)` for a channel of capacity `cap`: when full the oldest frame is dropped; `42_receive_events.md` R146. -/
def deliverAt (cap : Nat) (f : Frame) (s : State) : State :=
  if s.rxq.length = cap then
    match s.rxq with
    | g :: q => emit (.rxDelivered f) (emit (.rxDropOldest g) { s with rxq := q ++ [f] })
    | [] => emit (.rxDelivered f) { s with rxq := [f] }
  else emit (.rxDelivered f) { s with rxq := s.rxq ++ [f] }

/-- `deliver(f)`; `42_receive_events.md` R146. -/
def deliver (f : Frame) (s : State) : State := deliverAt Config.rxqCap f s

/-- `rx_error(kind)`; `42_receive_events.md` R150. -/
def rxError (k : BusErrorKind) (s : State) : State :=
  setPhase .idle (emit (.receiveFailed k) { s with lastError := some k })

/-- The end of a transmit: the slot is filled, `tx` is destroyed; `43_transmit_events.md` R164, R165. -/
def endTransmit (o : TxOutcome) (s : State) : State := setPhase .idle { s with txDone := some o }

/-- `tx_error(kind)`; `43_transmit_events.md` R165. The sub-state `Errored` is held inside this procedure only. -/
def txError (k : TxErrorKind) (s : State) : State :=
  endTransmit (.err k) (emit (.txFailed k.kind) { setSub .errored s with lastError := some k.kind })

end Sys2Proof.Machine
end

