-- ==== Sys2Proof/Machine/HostApi.lean ====
section
/-!
DEFINITION. `TXWAIT`, `RECEIVE`, `LAST_ERROR`; `44_host_api.md`. A command that waits answers the state unchanged (log
entry 5); a `HOST` turn leaves it in line (`hostTurn` in `Machine/Agents.lean`).
-/
namespace Sys2Proof.Machine

/-- `TXWAIT`; `44_host_api.md` R182. -/
def execTxwait (s : State) : Host.Outcome State Fault Refusal :=
  hostStep (fun s =>
    match s.txDone with
    | some r => .next (answerCode r.code { s with txDone := none })
    | none => if s.st == .transmitting then .next s else .refused .noTransmitToCollect) s

/-- `RECEIVE`; `44_host_api.md` R183. -/
def execReceive (s : State) : Host.Outcome State Fault Refusal :=
  hostStep (fun s =>
    match s.rxq with
    | f :: q => .next (answer (.host (receiveResult f)) { s with rxq := q })
    | [] => .next s) s

/-- `LAST_ERROR`; `44_host_api.md` R184. -/
def execLastError (s : State) : Host.Outcome State Fault Refusal :=
  hostStep (fun s => .next (answerCode (lastErrorCode s.lastError) { s with lastError := none })) s

end Sys2Proof.Machine
end

