-- ==== Sys2Proof/Machine/InitTeardown.lean ====
section
/-!
DEFINITION. `ARM` and `DISARM`; `41_init_teardown.md`.
-/
namespace Sys2Proof.Machine

/-- The three register writes of `ARM`, enable last; `41_init_teardown.md` R132, `20_memory.md` R71 (a). -/
def program (cfg : Configuration) (s : State) : State :=
  writeReg .cr 0x00000001#32 (writeReg .ier Config.evmask (writeReg .cfgr (encodeCfg cfg) s))

/-- `ARM cfg`; `41_init_teardown.md` R131, R132, R134. -/
def execArm (cfg : Configuration) (s : State) : Host.Outcome State Fault Refusal :=
  hostStep (fun s =>
    if armed s then .refused .alreadyArmed
    else if ownOutOfRange cfg then .next (answerCode codeConfigurationInvalid s)
    else .next (answerCode codeOk (setPhase .idle (program cfg s)))) s

/-- The three register writes of `DISARM`, enable first; `41_init_teardown.md` R135, `20_memory.md` R71 (b). -/
def unprogram (s : State) : State :=
  writeReg .isr Config.evmask (writeReg .ier 0x00000000#32 (writeReg .cr 0x00000000#32 s))

/-- A transmit in progress is reported as `Aborted`; `41_init_teardown.md` R135. -/
def abortTransmit (s : State) : State :=
  match s.st with
  | .transmitting => emit .txAborted { s with txDone := some .aborted }
  | _ => s

/-- `DISARM`; `41_init_teardown.md` R135. -/
def execDisarm (s : State) : Host.Outcome State Fault Refusal :=
  hostStep (fun s => .next (answerCode codeOk (setPhase .idle (abortTransmit (unprogram s))))) s

end Sys2Proof.Machine
end

