-- ==== Sys2Proof/Machine/RegisterOps.lean ====
section
/-!
DEFINITION. The twelve register accesses taken by themselves; `40_register_ops.md`. None has a guard (`95_test_vectors.md`
2.1: they are no `HOST` steps).
-/
namespace Sys2Proof.Machine

/-- A read by itself: its value is returned and nothing else changes. -/
def readStep (r : Reg) (s : State) : Host.Outcome State Fault Refusal := .next (answer (.reg (readReg r s)) s)

/-- A write by itself. -/
def writeStep (r : Reg) (v : Word) (s : State) : Host.Outcome State Fault Refusal := .next (writeReg r v s)

/-- `RD.CR`; R112. -/
def execRdCr (s : State) : Host.Outcome State Fault Refusal := readStep .cr s
/-- `WR.CR v`; R111. -/
def execWrCr (v : Word) (s : State) : Host.Outcome State Fault Refusal := writeStep .cr v s
/-- `RD.CFGR`; R114. -/
def execRdCfgr (s : State) : Host.Outcome State Fault Refusal := readStep .cfgr s
/-- `WR.CFGR v`; R113. -/
def execWrCfgr (v : Word) (s : State) : Host.Outcome State Fault Refusal := writeStep .cfgr v s
/-- `RD.TXDR`; R116. -/
def execRdTxdr (s : State) : Host.Outcome State Fault Refusal := readStep .txdr s
/-- `WR.TXDR v`; R115. -/
def execWrTxdr (v : Word) (s : State) : Host.Outcome State Fault Refusal := writeStep .txdr v s
/-- `RD.RXDR`; R121. -/
def execRdRxdr (s : State) : Host.Outcome State Fault Refusal := readStep .rxdr s
/-- `WR.RXDR v`; R122. -/
def execWrRxdr (v : Word) (s : State) : Host.Outcome State Fault Refusal := writeStep .rxdr v s
/-- `RD.ISR`; R119. -/
def execRdIsr (s : State) : Host.Outcome State Fault Refusal := readStep .isr s
/-- `WR.ISR v`; R117. -/
def execWrIsr (v : Word) (s : State) : Host.Outcome State Fault Refusal := writeStep .isr v s
/-- `RD.IER`; R120. -/
def execRdIer (s : State) : Host.Outcome State Fault Refusal := readStep .ier s
/-- `WR.IER v`; R118. -/
def execWrIer (v : Word) (s : State) : Host.Outcome State Fault Refusal := writeStep .ier v s

end Sys2Proof.Machine
end

