-- ==== Sys2Proof/Machine/Receive.lean ====
section
/-!
DEFINITION. The receive half of the frame state machine, `42_receive_events.md`: for each of its six events the meaning of
its `E` row, which raises the word's bits (`60_exceptions.md` R201), and what the sequencer does when it handles the event.
-/
namespace Sys2Proof.Machine

/-- `RXSTART`; raise: R201. -/
def execRxstart (bits : BitVec 16) (rxd : Byte) (s : State) : Host.Outcome State Fault Refusal := lineRaise bits rxd s
/-- `RXBR`; raise: R201. -/
def execRxbr (bits : BitVec 16) (rxd : Byte) (s : State) : Host.Outcome State Fault Refusal := lineRaise bits rxd s
/-- `RXEND`; raise: R201. -/
def execRxend (bits : BitVec 16) (rxd : Byte) (s : State) : Host.Outcome State Fault Refusal := lineRaise bits rxd s
/-- `BRE`; raise: R201. -/
def execBre (bits : BitVec 16) (rxd : Byte) (s : State) : Host.Outcome State Fault Refusal := lineRaise bits rxd s
/-- `SBPE`; raise: R201. -/
def execSbpe (bits : BitVec 16) (rxd : Byte) (s : State) : Host.Outcome State Fault Refusal := lineRaise bits rxd s
/-- `LBPE`; raise: R201. -/
def execLbpe (bits : BitVec 16) (rxd : Byte) (s : State) : Host.Outcome State Fault Refusal := lineRaise bits rxd s

/-- `RXSTART`, "start bit received"; `42_receive_events.md` R141. -/
def handleRxstart (s : State) : State :=
  match s.phase with
  | .idle => setPhase (.receiving { buf := [], matched := false }) s
  | _ => violation .rxstart s

/-- `RXBR`, "byte received"; `42_receive_events.md` R143, R144. -/
def handleRxbr (s : State) : State :=
  match s.phase with
  | .receiving rx =>
    let b := lowByte (readReg .rxdr s)
    if rx.count < Config.maxFrame then
      setPhase (.receiving {
        buf := rx.buf ++ [b]
        matched := if rx.count = 0 then accept s.cfgr (dst b) else rx.matched }) s
    else violation .rxbr s
  | _ => violation .rxbr s

/-- `RXEND`, "receive complete"; `42_receive_events.md` R145. -/
def handleRxend (s : State) : State :=
  match s.phase with
  | .receiving rx =>
    if 1 ≤ rx.count then setPhase .idle (if rx.matched then deliver rx.buf s else emit .frameIgnored s)
    else violation .rxend s
  | _ => violation .rxend s

/-- A receive error bit: `rx_error(kind)` while `Receiving`, else a violation; `42_receive_events.md` R147 to R149. -/
def handleRxError (e : Event) (k : BusErrorKind) (s : State) : State :=
  match s.phase with
  | .receiving _ => rxError k s
  | _ => violation e s

/-- `BRE`; `42_receive_events.md` R147. -/
def handleBre (s : State) : State := handleRxError .bre .bitRisingError s
/-- `SBPE`; `42_receive_events.md` R148. -/
def handleSbpe (s : State) : State := handleRxError .sbpe .shortBitPeriodError s
/-- `LBPE`; `42_receive_events.md` R149. -/
def handleLbpe (s : State) : State := handleRxError .lbpe .longBitPeriodError s

end Sys2Proof.Machine
end

