-- ==== Sys2Proof/Machine/Transmit.lean ====
section
/-!
DEFINITION. The transmit half of the frame state machine, `43_transmit_events.md`: the command `TRANSMIT`, and for each of
its five events the meaning of its `E` row (`60_exceptions.md` R201) and what the sequencer does when it handles the event.
-/
namespace Sys2Proof.Machine

/-- `TRANSMIT` accepted: the first byte goes to `TXDR` and `tx` is created; `43_transmit_events.md` R161. -/
def startTransmit (b0 : Byte) (payload : List Byte) (s : State) : State :=
  setPhase (.transmitting { frame := b0 :: payload, idx := 1, sub := .waitSFT }) (writeReg .txdr (zextByte b0) s)

/-- `TRANSMIT f`; the checks in the order of `43_transmit_events.md` R161, R162. -/
def execTransmit (f : Frame) (s : State) : Host.Outcome State Fault Refusal :=
  hostStep (fun s =>
    match f with
    | [] => .next (answerCode codeInvalidFrame s)
    | b0 :: payload =>
      if Config.maxFrame < f.length then .next (answerCode codeInvalidFrame s)
      else if !armed s then .refused .notArmed
      else if s.st != .idle || s.txDone.isSome then .next (answerCode codeBusy s)
      else .next (answerCode codeOk (startTransmit b0 payload s))) s

/-- `TXBR`; raise: R201. -/
def execTxbr (bits : BitVec 16) (rxd : Byte) (s : State) : Host.Outcome State Fault Refusal := lineRaise bits rxd s
/-- `TXEND`; raise: R201. -/
def execTxend (bits : BitVec 16) (rxd : Byte) (s : State) : Host.Outcome State Fault Refusal := lineRaise bits rxd s
/-- `ARBLST`; raise: R201. -/
def execArblst (bits : BitVec 16) (rxd : Byte) (s : State) : Host.Outcome State Fault Refusal := lineRaise bits rxd s
/-- `TXACKE`; raise: R201. -/
def execTxacke (bits : BitVec 16) (rxd : Byte) (s : State) : Host.Outcome State Fault Refusal := lineRaise bits rxd s
/-- `TXERR`; raise: R201. -/
def execTxerr (bits : BitVec 16) (rxd : Byte) (s : State) : Host.Outcome State Fault Refusal := lineRaise bits rxd s

/-- `TXBR`, "transmit byte request"; `43_transmit_events.md` R163. -/
def handleTxbr (s : State) : State :=
  match s.phase with
  | .transmitting tx =>
    if tx.idx < tx.len then
      setPhase (.transmitting { tx with idx := tx.idx + 1, sub := .byteInFlight })
        (writeReg .txdr (zextByte (tx.frame.getD tx.idx 0#8)) s)
    else violation .txbr s
  | _ => violation .txbr s

/-- `TXEND`, "transmit complete"; `43_transmit_events.md` R164. The sub-state `Complete` is held inside this procedure only. -/
def handleTxend (s : State) : State :=
  match s.phase with
  | .transmitting tx => if tx.idx = tx.len then endTransmit .ok (emit .txSucceeded (setSub .complete s)) else violation .txend s
  | _ => violation .txend s

/-- A transmit error bit: `tx_error(kind)` while `Transmitting`, else a violation; `43_transmit_events.md` R166 to R168. -/
def handleTxError (e : Event) (k : TxErrorKind) (s : State) : State :=
  match s.phase with
  | .transmitting _ => txError k s
  | _ => violation e s

/-- `ARBLST`; `43_transmit_events.md` R166. -/
def handleArblst (s : State) : State := handleTxError .arblst .arbitrationLost s
/-- `TXACKE`; `43_transmit_events.md` R167. -/
def handleTxacke (s : State) : State := handleTxError .txacke .ackFailure s
/-- `TXERR`; `43_transmit_events.md` R168. -/
def handleTxerr (s : State) : State := handleTxError .txerr .lineError s

end Sys2Proof.Machine
end

