-- ==== Sys2Proof/Machine/Sequencer.lean ====
section
/-!
DEFINITION. The sequencer invocation, this block's trap; `60_exceptions.md` R204 to R207.
-/
namespace Sys2Proof.Machine

/-- `handle(b)`: the rule of event `b` applied to the current `st`; `60_exceptions.md` R202, R204. -/
def handle : Event → State → State
  | .arblst => handleArblst
  | .txacke => handleTxacke
  | .txerr => handleTxerr
  | .bre => handleBre
  | .sbpe => handleSbpe
  | .lbpe => handleLbpe
  | .rxstart => handleRxstart
  | .rxbr => handleRxbr
  | .rxend => handleRxend
  | .txbr => handleTxbr
  | .txend => handleTxend

/-- One error bit of a class: handled if it is taken and the class is not yet superseded; the class becomes superseded
when the bit met the state it ends; `60_exceptions.md` R204, R206. -/
def errorBit (taken : Word) (ends : SeqState) (acc : State × Bool) (e : Event) : State × Bool :=
  if hasEvent taken e && !acc.2 then (handle e acc.1, acc.1.st == ends) else acc

/-- The error bits of a class in order, with whether the attempt they belong to has been ended. -/
def errorClass (taken : Word) (ends : SeqState) (es : List Event) (s : State) : State × Bool :=
  es.foldl (errorBit taken ends) (s, false)

/-- One progress bit: handled if it is taken and not superseded; `60_exceptions.md` R204, R206. -/
def progressBit (taken : Word) (superseded : Bool) (e : Event) (s : State) : State :=
  if hasEvent taken e && !superseded then handle e s else s

/-- The handling of the events taken, errors first, in the order of `60_exceptions.md` R204, R205. -/
def dispatchEvents (taken : Word) (s : State) : State :=
  let tx := errorClass taken .transmitting [.arblst, .txacke, .txerr] s
  let rx := errorClass taken .receiving [.bre, .sbpe, .lbpe] tx.1
  progressBit taken tx.2 .txend
    (progressBit taken tx.2 .txbr
      (progressBit taken rx.2 .rxend
        (progressBit taken rx.2 .rxbr
          (progressBit taken false .rxstart rx.1))))

/-- `SEQ.invoke`, one atomic step; `60_exceptions.md` R204. -/
def seqInvoke (s : State) : State :=
  let entry := takeInterrupt s
  returnFromInterrupt (dispatchEvents entry.1 entry.2)

end Sys2Proof.Machine
end

