-- ==== Sys2Proof/Machine/Dispatch.lean ====
section
/-!
DEFINITION. The meaning of every operation: one arm per constructor of `Instr`.
-/
namespace Sys2Proof.Machine

def exec (i : Instr) (s : State) : Host.Outcome State Fault Refusal :=
  match i with
  | .arm cfg => Sys2Proof.Machine.execArm cfg s
  | .disarm => Sys2Proof.Machine.execDisarm s
  | .transmit f => Sys2Proof.Machine.execTransmit f s
  | .txwait => Sys2Proof.Machine.execTxwait s
  | .receive => Sys2Proof.Machine.execReceive s
  | .lastError => Sys2Proof.Machine.execLastError s
  | .rxbr bits rxd => Sys2Proof.Machine.execRxbr bits rxd s
  | .rxend bits rxd => Sys2Proof.Machine.execRxend bits rxd s
  | .bre bits rxd => Sys2Proof.Machine.execBre bits rxd s
  | .sbpe bits rxd => Sys2Proof.Machine.execSbpe bits rxd s
  | .lbpe bits rxd => Sys2Proof.Machine.execLbpe bits rxd s
  | .arblst bits rxd => Sys2Proof.Machine.execArblst bits rxd s
  | .txbr bits rxd => Sys2Proof.Machine.execTxbr bits rxd s
  | .txend bits rxd => Sys2Proof.Machine.execTxend bits rxd s
  | .txerr bits rxd => Sys2Proof.Machine.execTxerr bits rxd s
  | .txacke bits rxd => Sys2Proof.Machine.execTxacke bits rxd s
  | .rxstart bits rxd => Sys2Proof.Machine.execRxstart bits rxd s
  | .rdCr => Sys2Proof.Machine.execRdCr s
  | .wrCr v => Sys2Proof.Machine.execWrCr v s
  | .rdCfgr => Sys2Proof.Machine.execRdCfgr s
  | .wrCfgr v => Sys2Proof.Machine.execWrCfgr v s
  | .rdTxdr => Sys2Proof.Machine.execRdTxdr s
  | .wrTxdr v => Sys2Proof.Machine.execWrTxdr v s
  | .rdRxdr => Sys2Proof.Machine.execRdRxdr s
  | .wrRxdr v => Sys2Proof.Machine.execWrRxdr v s
  | .rdIsr => Sys2Proof.Machine.execRdIsr s
  | .wrIsr v => Sys2Proof.Machine.execWrIsr v s
  | .rdIer => Sys2Proof.Machine.execRdIer s
  | .wrIer v => Sys2Proof.Machine.execWrIer v s

end Sys2Proof.Machine
end

