-- ==== Sys2Proof/Machine/Agents.lean ====
section
/-!
DEFINITION. The turns of the agents: each fetches the next operation its agent presents, decodes it and runs it.
A turn whose agent has nothing enabled passes and changes nothing else (`20_memory.md` R67, R68; log entries 3 to 5 and 25).
-/
namespace Sys2Proof.Machine

/-- A byte that waits stays in its place before what is left when a command behind it is taken. -/
def keepByte (b : Byte) : Except Reject (Option (Instr × List Byte)) → Except Reject (Option (Instr × List Byte))
  | .ok (some (i, left)) => .ok (some (i, b :: left))
  | .ok none => .ok none
  | .error r => .error r

/-- Of the commands `HOST` has issued, `bs`, the earliest that does not wait, with the bytes left when it is taken; `none`
if all of them wait. A command that waits is one byte and stays in its place (`readyCommand_cases` in `Laws/Turns.lean`). -/
def readyCommand (s : State) : List Byte → Except Reject (Option (Instr × List Byte))
  | [] => .ok none
  | b :: bs =>
    match decodeHost (b :: bs) with
    | .error r => .error r
    | .ok (i, rest) => if waits i s then keepByte b (readyCommand s bs) else .ok (some (i, rest))

/-- A `HOST` turn. While `irq = 1` every command waits; a held `TXWAIT` or `RECEIVE` waits alone, so that a `DISARM` issued
while it waits can lift the hold (`60_exceptions.md` R216, `20_memory.md` R74, `93_implementation_defined.md` U18 "the command,
not the machine, is stuck"). That the turn goes to the earliest command that does not wait, and that with none the turn
passes, is the model's: DESIGN CHOICE, safe (log entries 5 and 25). -/
def hostTurn (s : State) : Host.Outcome State Fault Refusal :=
  if !hostEnabled s then .next s
  else
    match readyCommand s s.hostIn with
    | .error r => .refused (refusalOf r)
    | .ok none => .next s
    | .ok (some (i, left)) => exec i { s with hostIn := left }

/-- A `LINE` turn. While `EN = 0` the `LINE` agent has no step and its word is not taken (`60_exceptions.md` R201,
`93_implementation_defined.md` U17). -/
def lineTurn (s : State) : Host.Outcome State Fault Refusal :=
  match s.lineIn with
  | [] => .next s
  | w :: rest =>
    if !lineEnabled s then .next s
    else
      match decodeEvent w with
      | .error r => .refused (refusalOf r)
      | .ok i => exec i { s with lineIn := rest }

/-- A `SEQ` turn: an invocation is enabled exactly when `irq = 1` (`60_exceptions.md` R203, R204). -/
def seqTurn (s : State) : Host.Outcome State Fault Refusal := if irq s then .next (seqInvoke s) else .next s

/-- A register access taken by itself: it is no `HOST` step and has no guard (`95_test_vectors.md` 2.1, log entry 10). -/
def regTurn (s : State) : Host.Outcome State Fault Refusal :=
  if s.regIn.isEmpty then .next s
  else
    match decodeAccess s.regIn with
    | .error r => .refused (refusalOf r)
    | .ok (i, rest) => exec i { s with regIn := rest }

/-- The turn of an agent. -/
def agentTurn : Agent → State → Host.Outcome State Fault Refusal
  | .host => hostTurn
  | .line => lineTurn
  | .seq => seqTurn
  | .reg => regTurn

/-- One step: the agent whose turn it is. With no turn scheduled a pending interrupt is served, since an enabled
invocation eventually runs (`20_memory.md` R74), and otherwise nothing happens (`70_reset_and_hazards.md` R232; log entry 4). -/
def nextTurn (s : State) : Host.Outcome State Fault Refusal :=
  match s.turns with
  | [] => seqTurn s
  | a :: rest => agentTurn a { s with turns := rest }

/-- An operation placed first in line of the agent that presents it, and that agent's turn next. -/
def present (o : Wire) (s : State) : State :=
  match o with
  | .host bs => { s with turns := .host :: s.turns, hostIn := bs ++ s.hostIn }
  | .line w => { s with turns := .line :: s.turns, lineIn := w :: s.lineIn }
  | .reg bs => { s with turns := .reg :: s.turns, regIn := bs ++ s.regIn }

/-- `s` with the guard of the fetch of `o` made true: the `LINE` agent has a step only while `EN = 1` (`60_exceptions.md`
R201), so for an event word a disarmed block is enabled, as `WR.CR 1` does (log entry 3). -/
def enableFetch (o : Wire) (s : State) : State :=
  match o with
  | .line _ => if armed s then s else writeReg .cr 0x00000001#32 s
  | _ => s

end Sys2Proof.Machine
end

