-- ==== Sys2Proof/Machine/Step.lean ====
section
/-!
DEFINITION. The step of the machine, and the placing of one operation where the step fetches next.
-/
namespace Sys2Proof.Machine

/-- One step; `20_memory.md` R67. -/
def step (s : State) : Host.Outcome State Fault Refusal := nextTurn s

/-- `s` with one operation of `spec/opcode_table.json`'s numbering presented to the block, so that the next step runs it
(log entry 3 says how operations come to run from reset). -/
def State.withFetchWord (s : State) (nbits w : Nat) : State := present (tableOperation nbits w) (enableFetch (tableOperation nbits w) s)

end Sys2Proof.Machine
end

