-- ==== Sys2Proof/Safety.lean ====
section
/-!
DEFINITION. The terms claims are stated in: the invariants of the block, the cells of the transition table that have a
transition, and the event sequences of the source's properties.
-/
namespace Sys2Proof.Safety
open Sys2Proof.Machine

/-- The bounds of the live buffer: `rx.count <= 16`; `1 <= tx.idx <= tx.len <= 16`, and `Complete` and `Errored` are never
stored between steps; `10_state.md` R22, R24. -/
def phaseBounds : Phase → Prop
  | .idle => True
  | .receiving rx => rx.count ≤ 16
  | .transmitting tx => 1 ≤ tx.idx ∧ tx.idx ≤ tx.len ∧ tx.len ≤ 16 ∧ (tx.sub = .waitSFT ∨ tx.sub = .byteInFlight)

/-- What every step keeps, raw register accesses among them. -/
structure BlockInv (s : State) : Prop where
  /-- Reserved bits read 0; `10_state.md` R39. -/
  cr_legal : s.cr &&& ~~~0x00000001#32 = 0#32
  cfgr_legal : s.cfgr &&& ~~~0xFFFF000F#32 = 0#32
  isr_legal : s.isr &&& ~~~0x00003BBB#32 = 0#32
  ier_legal : s.ier &&& ~~~0x00003BBB#32 = 0#32
  txdr_byte : s.txdr &&& ~~~0x000000FF#32 = 0#32
  rxdr_byte : s.rxdr &&& ~~~0x000000FF#32 = 0#32
  /-- `EN = 0` implies `TXRDY = 0`; `40_register_ops.md` R115. -/
  ready_armed : armed s = false → s.txrdy = false
  /-- `10_state.md` R22, R24. -/
  bounds : phaseBounds s.phase
  /-- `st = Transmitting` implies `tx_done` is empty; `10_state.md` R27. -/
  slot_empty : s.st = .transmitting → s.txDone = none
  /-- At most `RXQ_CAP` frames, each of 1 to 16 bytes; `10_state.md` R26. -/
  channel_bound : s.rxq.length ≤ Config.rxqCap
  channel_frames : ∀ f ∈ s.rxq, 1 ≤ f.length ∧ f.length ≤ 16

/-- What every step of the three agents keeps (`HOST`, `LINE`, `SEQ`; not a raw register access, which no agent issues):
armed, all eleven sources are enabled; disarmed, nothing is pending, enabled or in progress; `10_state.md` R22 (`st != Idle`
implies `x[CR][0] = 1`), R39, `41_init_teardown.md` R132, R135. -/
structure AgentInv (s : State) : Prop where
  defined : s.isr &&& ~~~0x00003BBB#32 = 0#32
  sources : armed s = true → s.ier = 0x00003BBB#32
  quiet : armed s = false → s.isr = 0#32 ∧ s.ier = 0#32 ∧ s.phase = .idle

/-- The cells of `60_exceptions.md` R208 that are not `PV`. -/
def transition (p : Phase) (e : Event) : Bool :=
  match p, e with
  | .transmitting _, .arblst => true
  | .transmitting _, .txacke => true
  | .transmitting _, .txerr => true
  | .receiving _, .bre => true
  | .receiving _, .sbpe => true
  | .receiving _, .lbpe => true
  | .idle, .rxstart => true
  | .receiving rx, .rxbr => decide (rx.count < 16)
  | .receiving rx, .rxend => decide (1 ≤ rx.count)
  | .transmitting tx, .txbr => decide (tx.idx < tx.len)
  | .transmitting tx, .txend => decide (tx.idx = tx.len)
  | _, _ => false

/-- The event word that raises one event: `rxd :: bits`; `30_encoding.md` R86. -/
def eventWord (e : Event) (rxd : Byte) : BitVec 24 := rxd ++ (1#16 <<< e.bit)

/-- The one event taken in a state: its bit is the only one pending and enabled. -/
def takesOnly (e : Event) (s : State) : Prop := s.isr &&& s.ier &&& 0x00003BBB#32 = 1#32 <<< e.bit

/-- Exactly the taken bits of `ISR` cleared; `60_exceptions.md` R204. -/
def cleared (s : State) : State := { s with isr := s.isr &&& ~~~(s.isr &&& s.ier &&& 0x00003BBB#32) }

/-- The transmit error that ends an attempt: the highest-priority taken bit of `TXERRS`; `60_exceptions.md` R205, R206. -/
def firstTxError (taken : Word) : Option TxErrorKind :=
  if taken.getLsbD 7 then some .arbitrationLost
  else if taken.getLsbD 12 then some .ackFailure
  else if taken.getLsbD 11 then some .lineError
  else none

/-- The receive error that ends an attempt: the highest-priority taken bit of `RXERRS`; `60_exceptions.md` R205, R206. -/
def firstRxError (taken : Word) : Option BusErrorKind :=
  if taken.getLsbD 3 then some .bitRisingError
  else if taken.getLsbD 4 then some .shortBitPeriodError
  else if taken.getLsbD 5 then some .longBitPeriodError
  else none

/-- Commands that all wait (`bs` their bytes): `TXWAIT` while the transmit runs with no outcome, `RECEIVE` while the channel
is empty; `60_exceptions.md` R216. -/
def allWait (bs : List Byte) (s : State) : Prop :=
  ∀ b ∈ bs, (b = 0x04#8 ∧ s.st = .transmitting ∧ s.txDone = none) ∨ (b = 0x05#8 ∧ s.rxq = [])

/-- The violations of those of the events `es` whose bit is in `w`, met in `st`, in the order of `es`; `60_exceptions.md` R214. -/
def violations (st : SeqState) (es : List Event) (w : Word) : List RecordedFault :=
  (es.filter fun e => w.getLsbD e.bit).map (.protocolViolation st)

/-- The labels of a delivery to a channel `q`: the oldest frame dropped when it is full, then the frame delivered;
`42_receive_events.md` R146. -/
def deliveryLabels (q : List Frame) (f : Frame) : List Label :=
  (if q.length = Config.rxqCap then (q.take 1).map .rxDropOldest else []) ++ [.rxDelivered f]

/-- The channel `q` after a delivery; `42_receive_events.md` R146. -/
def channelAfter (q : List Frame) (f : Frame) : List Frame :=
  (if q.length = Config.rxqCap then q.drop 1 else q) ++ [f]

/-- `k` steps, ending at the first that stops. -/
def runs : Nat → State → Host.Outcome State Fault Refusal
  | 0, s => .next s
  | k + 1, s =>
    match step s with
    | .next t => runs k t
    | .fault r => .fault r
    | .refused r => .refused r

/-- `n` raises, each served before the next. -/
def servedRaises : Nat → List Agent
  | 0 => []
  | n + 1 => .line :: .seq :: servedRaises n

/-- `words` raised by the `LINE` agent, each served before the next, from the state `s`. -/
def raising (words : List (BitVec 24)) (s : State) : State :=
  { s with turns := servedRaises words.length ++ s.turns, lineIn := words ++ s.lineIn }

/-- The words of "start-bit, byte-received×k" for the bytes `bs`; `30_encoding.md` R96. -/
def startAndBytes (bs : List Byte) : List (BitVec 24) := eventWord .rxstart 0#8 :: bs.map (eventWord .rxbr)

/-- `inject(frame)`: "start-bit, byte-received×N, receive-complete"; `30_encoding.md` R96. -/
def injectWords (f : Frame) : List (BitVec 24) := startAndBytes f ++ [eventWord .rxend 0#8]

/-- "transmit-byte-request×(N-1), transmit-complete" for a frame of `n` bytes. -/
def transmitWords (n : Nat) : List (BitVec 24) :=
  List.replicate (n - 1) (eventWord .txbr 0#8) ++ [eventWord .txend 0#8]

/-- `HOST` issues a command whose bytes are `cmd`, and then the `LINE` agent raises `words`, each served before the next. -/
def commandThenRaising (cmd : List Byte) (words : List (BitVec 24)) (s : State) : State :=
  { s with
    turns := .host :: servedRaises words.length ++ s.turns
    hostIn := cmd ++ s.hostIn
    lineIn := words ++ s.lineIn }

/-- The steps that `raising words` takes. -/
def raisingSteps (words : List (BitVec 24)) : Nat := 2 * words.length

/-- `RECEIVE` `n` times, ending at the first that stops. -/
def receives : Nat → State → Host.Outcome State Fault Refusal
  | 0, s => .next s
  | n + 1, s =>
    match exec .receive s with
    | .next t => receives n t
    | .fault r => .fault r
    | .refused r => .refused r

/-- The result of a `RECEIVE` that returns `f`: `00 len b0 .. b(len-1)`; `44_host_api.md` R183. -/
def received (f : Frame) : Answer := .host (0x00#8 :: BitVec.ofNat 8 f.length :: f)

end Sys2Proof.Safety
end

