-- ==== Sys2Proof/WellFormed.lean ====
section
/-!
DEFINITION. Which terms of `Instr` have an encoding: the ranges of the operand fields of `30_encoding.md` R82, R83 and the
legal event words of R92.
-/
namespace Sys2Proof

/-- The word of an `E` constructor is legal and its highest-priority event is the constructor's (log entry 9). -/
def wellFormedEvent (e : Event) (bits : BitVec 16) (rxd : Byte) : Bool :=
  legalEvent bits rxd && firstEvent bits == some e

/-- The terms that some byte string or word encodes. -/
def Instr.wellFormed : Instr → Bool
  | .arm cfg => cfg.own != some 0xFF#8
  | .transmit f => decide (f.length ≤ 255)
  | .rxbr bits rxd => wellFormedEvent .rxbr bits rxd
  | .rxend bits rxd => wellFormedEvent .rxend bits rxd
  | .bre bits rxd => wellFormedEvent .bre bits rxd
  | .sbpe bits rxd => wellFormedEvent .sbpe bits rxd
  | .lbpe bits rxd => wellFormedEvent .lbpe bits rxd
  | .arblst bits rxd => wellFormedEvent .arblst bits rxd
  | .txbr bits rxd => wellFormedEvent .txbr bits rxd
  | .txend bits rxd => wellFormedEvent .txend bits rxd
  | .txerr bits rxd => wellFormedEvent .txerr bits rxd
  | .txacke bits rxd => wellFormedEvent .txacke bits rxd
  | .rxstart bits rxd => wellFormedEvent .rxstart bits rxd
  | .disarm => true
  | .txwait => true
  | .receive => true
  | .lastError => true
  | .rdCr => true
  | .wrCr _ => true
  | .rdCfgr => true
  | .wrCfgr _ => true
  | .rdTxdr => true
  | .wrTxdr _ => true
  | .rdRxdr => true
  | .wrRxdr _ => true
  | .rdIsr => true
  | .wrIsr _ => true
  | .rdIer => true
  | .wrIer _ => true

end Sys2Proof
end

