-- ==== Sys2Proof/Certificates/Slice0/Obligations.lean ====
section
/-!
DEFINITION. The statements for the provers, one `def Obligations.<Name> : Prop` each, from the numbered rules of `spec/`.
-/
open Sys2Proof Sys2Proof.Machine Sys2Proof.Safety

/-! ## Reset, fetch and turns -/

/-- `10_state.md` R47: the state after reset. The values are the spec's; the model's own fields are not in it. -/
def Obligations.ResetState : Prop :=
  State.reset.cr = 0x00000000#32 ∧ State.reset.cfgr = 0x00000000#32 ∧ State.reset.txdr = 0x00000000#32 ∧
  State.reset.rxdr = 0x00000000#32 ∧ State.reset.isr = 0x00000000#32 ∧ State.reset.ier = 0x00000000#32 ∧
  State.reset.txrdy = false ∧ State.reset.phase = .idle ∧ State.reset.rxq = [] ∧ State.reset.txDone = none ∧
  State.reset.lastError = none ∧ State.reset.faults = [] ∧ armed State.reset = false ∧ irq State.reset = false

/-- A step runs the decoded operation: the model's fetch (log entries 3 and 10) around `exec`. The first `HOST` command that
does not wait, an event word while `EN = 1`, and a register access are each taken from what their agent presents, whole, and
run. That of several commands issued the first that does not wait gets the turn, those before it staying in line, is the
model's choice (log entry 25). -/
def Obligations.StepRunsTheDecodedOperation : Prop :=
  (∀ s i turns waiting own rest, s.turns = .host :: turns → irq s = false → s.hostIn = waiting ++ own →
    allWait waiting s → decodeHost own = .ok (i, rest) → waits i s = false →
    step s = exec i { s with turns := turns, hostIn := waiting ++ rest }) ∧
  (∀ s i turns w words, s.turns = .line :: turns → s.lineIn = w :: words → decodeEvent w = .ok i → armed s = true →
    step s = exec i { s with turns := turns, lineIn := words }) ∧
  (∀ s i turns rest, s.turns = .reg :: turns → decodeAccess s.regIn = .ok (i, rest) →
    step s = exec i { s with turns := turns, regIn := rest })

/-- `60_exceptions.md` R216, `20_memory.md` R68: every `HOST` command waits while `irq = 1`; `TXWAIT` waits while the transmit
runs, `RECEIVE` while the channel is empty, and with nothing else issued the turn has no effect. That a turn passes is the
model's choice (log entry 5). -/
def Obligations.HostCommandsWait : Prop :=
  (∀ s turns, s.turns = .host :: turns → irq s = true → step s = .next { s with turns := turns }) ∧
  (∀ s turns, s.turns = .host :: turns → allWait s.hostIn s → step s = .next { s with turns := turns })

/-- `44_host_api.md` R182, `60_exceptions.md` R216, `20_memory.md` R74, `95_test_vectors.md` V-H1, `93_implementation_defined.md`
U18: a `DISARM` issued while a `TXWAIT` waits is not held by it; it ends the transmit and lifts the hold, and the `TXWAIT` then
returns `Aborted`. `pre` is what else was issued between them and waits as well. That the two `HOST` turns go to these two
commands is the model's choice (log entry 25). -/
def Obligations.DisarmLiftsTheHoldOfTxWait : Prop :=
  ∀ s tx turns pre rest, s.turns = .host :: .host :: turns → s.hostIn = 0x04#8 :: (pre ++ 0x02#8 :: rest) → allWait pre s →
    s.phase = .transmitting tx → s.txDone = none → irq s = false →
    runs 2 s = .next { s with
      turns := turns
      hostIn := pre ++ rest
      cr := 0x00000000#32
      ier := 0x00000000#32
      isr := s.isr &&& ~~~0x00003BBB#32
      txrdy := false
      phase := .idle
      trace := s.trace ++ [.txAborted]
      results := s.results ++ [.host [0x00#8], .host [0x17#8]] }

/-- `60_exceptions.md` R216, `20_memory.md` R74: the invocation that takes `TXEND` or a transmit error lifts the hold of a
`TXWAIT`, which then returns the outcome; the one that delivers a frame lifts the hold of a `RECEIVE`, which then returns it;
every invocation lifts the hold that `irq = 1` puts on every command, since only the eleven defined bits can be pending
(`10_state.md` R39). The turns are the model's (log entries 3, 25). -/
def Obligations.SequencerLiftsTheHolds : Prop :=
  (∀ s tx turns rest, s.turns = .seq :: .host :: turns → s.hostIn = 0x04#8 :: rest → s.phase = .transmitting tx →
    tx.idx = tx.frame.length → s.txDone = none → s.isr &&& s.ier = 0x00000200#32 →
    ∃ t, runs 2 s = .next t ∧ t.hostIn = rest ∧ t.txDone = none ∧ t.results = s.results ++ [.host [0x00#8]]) ∧
  (∀ s tx turns rest e k, s.turns = .seq :: .host :: turns → s.hostIn = 0x04#8 :: rest → s.phase = .transmitting tx →
    (e, k) ∈ [(Event.arblst, 0x14#8), (.txacke, 0x15#8), (.txerr, 0x16#8)] → s.isr &&& s.ier = 1#32 <<< e.bit →
    ∃ t, runs 2 s = .next t ∧ t.hostIn = rest ∧ t.txDone = none ∧ t.results = s.results ++ [.host [k]]) ∧
  (∀ s rx turns rest, s.turns = .seq :: .host :: turns → s.hostIn = 0x05#8 :: rest → s.phase = .receiving rx →
    rx.buf ≠ [] → rx.matched = true → s.rxq = [] → s.isr &&& s.ier = 0x00000002#32 →
    ∃ t, runs 2 s = .next t ∧ t.hostIn = rest ∧ t.rxq = [] ∧ t.results = s.results ++ [received rx.buf]) ∧
  (∀ s, s.isr &&& ~~~0x00003BBB#32 = 0#32 → irq (seqInvoke s) = false)

/-- `60_exceptions.md` R201, `93_implementation_defined.md` U17: while `EN = 0` the `LINE` agent has no step and a word it
offers is not taken. The fault of `exec` and the passing of the turn are the model's (log entry 8). -/
def Obligations.LineHasNoStepWhileDisarmed : Prop :=
  (∀ s turns, s.turns = .line :: turns → armed s = false → step s = .next { s with turns := turns }) ∧
  (∀ s bits rxd, armed s = false →
    exec (.rxbr bits rxd) s = .fault .lineHasNoStep ∧ exec (.rxend bits rxd) s = .fault .lineHasNoStep ∧
    exec (.bre bits rxd) s = .fault .lineHasNoStep ∧ exec (.sbpe bits rxd) s = .fault .lineHasNoStep ∧
    exec (.lbpe bits rxd) s = .fault .lineHasNoStep ∧ exec (.arblst bits rxd) s = .fault .lineHasNoStep ∧
    exec (.txbr bits rxd) s = .fault .lineHasNoStep ∧ exec (.txend bits rxd) s = .fault .lineHasNoStep ∧
    exec (.txerr bits rxd) s = .fault .lineHasNoStep ∧ exec (.txacke bits rxd) s = .fault .lineHasNoStep ∧
    exec (.rxstart bits rxd) s = .fault .lineHasNoStep)

/-- `60_exceptions.md` R203, R204: a sequencer turn is an invocation exactly when `irq = 1`, and it always completes. That a
turn with `irq = 0`, where no invocation is enabled, passes and is used up is the model's choice (log entry 5), and so is that
with no turn scheduled a pending interrupt is served (log entry 4, its reading of R74). -/
def Obligations.SequencerRunsExactlyOnIrq : Prop :=
  (∀ s turns, s.turns = .seq :: turns →
    step s = .next (if irq s then seqInvoke { s with turns := turns } else { s with turns := turns })) ∧
  (∀ s, s.turns = [] → step s = .next (if irq s then seqInvoke s else s))

/-! ## Encoding -/

/-- Words written out from `30_encoding.md` R82 to R89 and the examples of R82, R83, R86. Two clauses are the model's choice:
`0x002080` holds two events and is read as the row of the first, `ARBLST` (log entry 9), and the data bytes of `WR.CFGR` are
taken most significant first (log entry 17). -/
def Obligations.SampleWordsDecode : Prop :=
  decodeHost [0x01#8, 0x03#8, 0x00#8, 0x00#8, 0x00#8] =
    .ok (.arm { own := some 3#8, extra := 0#16, tol := .standard, sft := 0#3, listen := false }, []) ∧
  decodeHost [0x03#8, 0x03#8, 0x30#8, 0x44#8, 0x41#8] = .ok (.transmit [0x30#8, 0x44#8, 0x41#8], []) ∧
  decodeHost [0x04#8] = .ok (.txwait, []) ∧
  decodeEvent 0x320001#24 = .ok (.rxbr 0x0001#16 0x32#8) ∧
  decodeEvent 0x002080#24 = .ok (.arblst 0x2080#16 0x00#8) ∧
  decodeAccess [0x04#8] = .ok (.rdCfgr, []) ∧
  decodeAccess [0x84#8, 0x00#8, 0x08#8, 0x00#8, 0x00#8] = .ok (.wrCfgr 0x00080000#32, [])

/-- `30_encoding.md` R81 to R89, R94: decoding the encoding of a well-formed operation gives it back, also at the head of
a longer stream, whose other bytes are left. -/
def Obligations.DecodeOfEncode : Prop :=
  (∀ i, i.wellFormed = true → decode (encode i) = .ok (i, [])) ∧
  (∀ i bs rest, i.wellFormed = true → encode i = .host bs → decodeHost (bs ++ rest) = .ok (i, rest)) ∧
  (∀ i bs rest, i.wellFormed = true → encode i = .reg bs → decodeAccess (bs ++ rest) = .ok (i, rest))

/-- `30_encoding.md` R81 to R89: what a decoder accepts is the encoding of the well-formed operation it answers, so each
operation has one encoding. -/
def Obligations.EncodeOfDecode : Prop :=
  (∀ bs i rest, decodeHost bs = .ok (i, rest) →
    i.wellFormed = true ∧ ∃ own, encode i = .host own ∧ bs = own ++ rest) ∧
  (∀ w i, decodeEvent w = .ok i → i.wellFormed = true ∧ encode i = .line w) ∧
  (∀ bs i rest, decodeAccess bs = .ok (i, rest) →
    i.wellFormed = true ∧ ∃ own, encode i = .reg own ∧ bs = own ++ rest)

/-- `30_encoding.md` R92: the strings and words that are no operations of the block. -/
def Obligations.IllegalEncodingsAreRefused : Prop :=
  (∀ op rest, op.toNat < 1 ∨ 6 < op.toNat → decodeHost (op :: rest) = .error .illegalCommand) ∧
  (∀ oa eh el fl rest, BitVec.extractLsb' 5 3 fl ≠ 0#3 →
    decodeHost (0x01#8 :: oa :: eh :: el :: fl :: rest) = .error .illegalCommand) ∧
  (∀ operands, operands.length < 4 → decodeHost (0x01#8 :: operands) = .error .illegalCommand) ∧
  (∀ len rest, rest.length < BitVec.toNat len → decodeHost (0x03#8 :: len :: rest) = .error .illegalCommand) ∧
  (∀ w : BitVec 24, w.getLsbD 2 = true ∨ w.getLsbD 6 = true ∨ w.getLsbD 10 = true ∨ w.getLsbD 14 = true ∨
      w.getLsbD 15 = true ∨ (w.extractLsb' 16 8 ≠ 0#8 ∧ w.getLsbD 0 = false) ∨ w.extractLsb' 0 16 = 0#16 →
    decodeEvent w = .error .illegalEvent) ∧
  (∀ hdr rest, BitVec.extractLsb' 5 2 hdr ≠ 0#2 ∨
      BitVec.extractLsb' 0 5 hdr ∉ [0x00#5, 0x04#5, 0x08#5, 0x0C#5, 0x10#5, 0x14#5] →
    decodeAccess (hdr :: rest) = .error .badRegisterAccess)

/-- `60_exceptions.md` R215, `30_encoding.md` R92: an operation that does not decode is refused under the decoder's name. For a
command this is the first of those issued that does not wait (the model's choice, log entry 25). -/
def Obligations.FetchRefusesByName : Prop :=
  (∀ s turns waiting own, s.turns = .host :: turns → irq s = false → s.hostIn = waiting ++ own → own ≠ [] →
    allWait waiting s → decodeHost own = .error .illegalCommand → step s = .refused .illegalCommand) ∧
  (∀ s turns w words, s.turns = .line :: turns → s.lineIn = w :: words → armed s = true →
    decodeEvent w = .error .illegalEvent → step s = .refused .illegalEvent) ∧
  (∀ s turns, s.turns = .reg :: turns → s.regIn ≠ [] →
    decodeAccess s.regIn = .error .badRegisterAccess → step s = .refused .badRegisterAccess)

/-! ## Register accesses -/

/-- `20_memory.md` R64: 32-bit accesses at the six offsets, and nothing else; each is the access of that register. -/
def Obligations.RegisterSpaceAccess : Prop :=
  (∀ r s, memRead r.offset 4 s = .ok (readReg r s)) ∧
  (∀ r v s, memWrite r.offset 4 v s = .ok (writeReg r v s)) ∧
  (∀ off width s, width ≠ 4 ∨ off ∉ [0x00, 0x04, 0x08, 0x0C, 0x10, 0x14] →
    memRead off width s = .error .badRegisterAccess) ∧
  (∀ off width v s, width ≠ 4 ∨ off ∉ [0x00, 0x04, 0x08, 0x0C, 0x10, 0x14] →
    memWrite off width v s = .error .badRegisterAccess) ∧
  (Reg.all.map Reg.offset = [0x00, 0x04, 0x08, 0x0C, 0x10, 0x14])

/-- `40_register_ops.md` R112, R114, R116, R119, R120, R121: what a read returns; it changes nothing else. -/
def Obligations.ReadsReturnAndChangeNothing : Prop :=
  ∀ s,
    exec .rdCr s = .next { s with results := s.results ++ [.reg s.cr] } ∧
    exec .rdCfgr s = .next { s with results := s.results ++ [.reg s.cfgr] } ∧
    exec .rdTxdr s = .next { s with results := s.results ++ [.reg 0x00000000#32] } ∧
    exec .rdRxdr s = .next { s with results := s.results ++ [.reg ((s.rxdr.extractLsb' 0 8).setWidth 32)] } ∧
    exec .rdIsr s = .next { s with results := s.results ++ [.reg s.isr] } ∧
    exec .rdIer s = .next { s with results := s.results ++ [.reg s.ier] }

/-- `40_register_ops.md` R111: only `EN` is stored, a rising `EN` sets `TXRDY`, a clear one clears it. -/
def Obligations.ControlWrite : Prop :=
  ∀ s v,
    (v.getLsbD 0 = false → exec (.wrCr v) s = .next { s with cr := 0x00000000#32, txrdy := false }) ∧
    (v.getLsbD 0 = true → s.cr.getLsbD 0 = false →
      exec (.wrCr v) s = .next { s with cr := 0x00000001#32, txrdy := true }) ∧
    (v.getLsbD 0 = true → s.cr.getLsbD 0 = true → exec (.wrCr v) s = .next { s with cr := 0x00000001#32 })

/-- `40_register_ops.md` R113: stored with bits 15:4 as 0 while disarmed; while armed the fault is recorded and the
register is left unchanged. -/
def Obligations.ConfigurationWrite : Prop :=
  ∀ s v,
    (s.cr.getLsbD 0 = false → exec (.wrCfgr v) s = .next { s with cfgr := v &&& 0xFFFF000F#32 }) ∧
    (s.cr.getLsbD 0 = true →
      exec (.wrCfgr v) s = .next { s with faults := s.faults ++ [.configWriteWhileArmed] })

/-- `40_register_ops.md` R115: the byte is stored, `TXRDY` cleared and the byte handed on, if the peripheral is ready;
if not, the fault is recorded and nothing else happens. -/
def Obligations.TxDataWrite : Prop :=
  ∀ s v,
    (s.txrdy = false → exec (.wrTxdr v) s = .next { s with faults := s.faults ++ [.txDataNotReady] }) ∧
    (s.txrdy = true → exec (.wrTxdr v) s = .next { s with
      txdr := (v.extractLsb' 0 8).setWidth 32
      txrdy := false
      trace := s.trace ++ [.txByte (v.extractLsb' 0 8)] })

/-- `40_register_ops.md` R117: write-1-to-clear, bit by bit; nothing else changes. -/
def Obligations.StatusWriteOneToClear : Prop :=
  ∀ s v, ∃ t, exec (.wrIsr v) s = .next t ∧ t = { s with isr := t.isr } ∧
    ∀ n < 32, t.isr.getLsbD n = (s.isr.getLsbD n && !(v.getLsbD n && (0x00003BBB#32).getLsbD n))

/-- `40_register_ops.md` R118: the enables written, reserved bits as 0; nothing else changes. -/
def Obligations.InterruptEnableWrite : Prop :=
  ∀ s v, exec (.wrIer v) s = .next { s with ier := v &&& 0x00003BBB#32 }

/-- `40_register_ops.md` R122: a write of `RXDR` has no effect. -/
def Obligations.RxDataWriteIgnored : Prop :=
  ∀ s v, exec (.wrRxdr v) s = .next s

/-! ## ARM and DISARM -/

/-- `41_init_teardown.md` R131, R132, R134: `ARM` refuses while armed, before it looks at the own address; rejects an own
address above 15 with no register written; else programs the registers and answers `Ok`. -/
def Obligations.ArmProgramsTheRegisters : Prop :=
  ∀ cfg s, irq s = false →
    (s.cr.getLsbD 0 = true → exec (.arm cfg) s = .refused .alreadyArmed) ∧
    (∀ a, s.cr.getLsbD 0 = false → cfg.own = some a → 15 < a.toNat →
      exec (.arm cfg) s = .next { s with results := s.results ++ [.host [0x01#8]] }) ∧
    (s.cr.getLsbD 0 = false → (∀ a, cfg.own = some a → a.toNat ≤ 15) →
      exec (.arm cfg) s = .next { s with
        cfgr := encodeCfg cfg
        ier := 0x00003BBB#32
        cr := 0x00000001#32
        txrdy := true
        phase := .idle
        results := s.results ++ [.host [0x00#8]] })

/-- `10_state.md` R45, R32: the fields of `encode(cfg)`. -/
def Obligations.ConfigurationEncoding : Prop :=
  ∀ cfg,
    (encodeCfg cfg).getLsbD 31 = cfg.listen ∧
    (encodeCfg cfg).extractLsb' 0 3 = cfg.sft ∧
    (encodeCfg cfg).getLsbD 3 = decide (cfg.tol = .extended) ∧
    (encodeCfg cfg).extractLsb' 4 12 = 0#12 ∧
    ∀ a : Nat, a ≤ 14 →
      (encodeCfg cfg).getLsbD (16 + a) = (cfg.extra.getLsbD a || decide (cfg.own = some (BitVec.ofNat 8 a)))

/-- `10_state.md` R46 after `ARM`: a destination is accepted in listen mode, if it is broadcast, or if it is the own
address or an additional one. -/
def Obligations.AcceptanceAfterProgramming : Prop :=
  ∀ cfg (d : BitVec 4),
    accept (encodeCfg cfg) d =
      (cfg.listen || decide (d = 15#4) || cfg.extra.getLsbD d.toNat || decide (cfg.own = some (d.setWidth 8)))

/-- `41_init_teardown.md` R133: what holds after `ARM`, from the states the agents reach (`AgentInv`). -/
def Obligations.ReadyAfterArm : Prop :=
  ∀ cfg s, AgentInv s → s.cr.getLsbD 0 = false → (∀ a, cfg.own = some a → a.toNat ≤ 15) →
    ∃ t, exec (.arm cfg) s = .next t ∧ t.phase = .idle ∧ t.cr.getLsbD 0 = true ∧ t.ier = 0x00003BBB#32 ∧
      t.isr = 0x00000000#32 ∧ t.txrdy = true

/-- `41_init_teardown.md` R135: registers cleared, a transmit in progress reported as `Aborted`, a receive discarded with
nothing recorded, result `Ok`; `CFGR`, `rxq`, `last_error` and an uncollected `tx_done` are kept. -/
def Obligations.DisarmStopsTheBlock : Prop :=
  ∀ s, irq s = false →
    (∀ tx, s.phase = .transmitting tx → exec .disarm s = .next { s with
      cr := 0x00000000#32
      ier := 0x00000000#32
      isr := s.isr &&& ~~~0x00003BBB#32
      txrdy := false
      phase := .idle
      txDone := some .aborted
      trace := s.trace ++ [.txAborted]
      results := s.results ++ [.host [0x00#8]] }) ∧
    (s.st ≠ .transmitting → exec .disarm s = .next { s with
      cr := 0x00000000#32
      ier := 0x00000000#32
      isr := s.isr &&& ~~~0x00003BBB#32
      txrdy := false
      phase := .idle
      results := s.results ++ [.host [0x00#8]] })

/-- `41_init_teardown.md` R136: the state after two `DISARM` is the state after one, but for the second result `Ok`. -/
def Obligations.DisarmIsIdempotent : Prop :=
  ∀ s, irq s = false → ∃ t, exec .disarm s = .next t ∧
    exec .disarm t = .next { t with results := t.results ++ [.host [0x00#8]] }

/-- `41_init_teardown.md` R137: `ARM`, `DISARM`, `ARM` with another valid Configuration programs the other one, with no
trace of the first. -/
def Obligations.ReArmWithAnotherConfiguration : Prop :=
  ∀ cfg₁ cfg₂ s, AgentInv s → s.cr.getLsbD 0 = false →
    (∀ a, cfg₁.own = some a → a.toNat ≤ 15) → (∀ a, cfg₂.own = some a → a.toNat ≤ 15) →
    ∃ t u, exec (.arm cfg₁) s = .next t ∧ exec .disarm t = .next u ∧
      exec (.arm cfg₂) u = .next { s with
        cfgr := encodeCfg cfg₂
        ier := 0x00003BBB#32
        cr := 0x00000001#32
        txrdy := true
        results := s.results ++ [.host [0x00#8], .host [0x00#8], .host [0x00#8]] }

/-! ## TRANSMIT, TXWAIT, RECEIVE, LAST_ERROR -/

/-- `43_transmit_events.md` R161: the checks of `TRANSMIT` in their order, and the acceptance. The last clause is the
acceptance with the peripheral not ready: the write records its fault and the step goes on (`00_scope.md` R10). -/
def Obligations.TransmitIsCheckedAndStarted : Prop :=
  ∀ f s, irq s = false →
    (f.length = 0 ∨ 16 < f.length →
      exec (.transmit f) s = .next { s with results := s.results ++ [.host [0x02#8]] }) ∧
    (1 ≤ f.length → f.length ≤ 16 → s.cr.getLsbD 0 = false → exec (.transmit f) s = .refused .notArmed) ∧
    (1 ≤ f.length → f.length ≤ 16 → s.cr.getLsbD 0 = true → s.phase ≠ .idle ∨ s.txDone ≠ none →
      exec (.transmit f) s = .next { s with results := s.results ++ [.host [0x03#8]] }) ∧
    (∀ b0 payload, f = b0 :: payload → f.length ≤ 16 → s.cr.getLsbD 0 = true → s.phase = .idle → s.txDone = none →
      s.txrdy = true → exec (.transmit f) s = .next { s with
        txdr := b0.setWidth 32
        txrdy := false
        phase := .transmitting { frame := f, idx := 1, sub := .waitSFT }
        trace := s.trace ++ [.txByte b0]
        results := s.results ++ [.host [0x00#8]] }) ∧
    (1 ≤ f.length → f.length ≤ 16 → s.cr.getLsbD 0 = true → s.phase = .idle → s.txDone = none →
      s.txrdy = false → exec (.transmit f) s = .next { s with
        phase := .transmitting { frame := f, idx := 1, sub := .waitSFT }
        faults := s.faults ++ [.txDataNotReady]
        results := s.results ++ [.host [0x00#8]] })

/-- `43_transmit_events.md` R162: a valid `TRANSMIT` on an armed block answers `Busy` exactly while a transmit is in
flight or a frame is being received, a `Busy` answer changes no state, and a valid `TRANSMIT` while disarmed is refused. -/
def Obligations.BusyExactlyWhileInFlightOrReceiving : Prop :=
  (∀ s, inFlight s = true ↔ s.st = .transmitting ∨ s.txDone ≠ none) ∧
  (∀ f s, irq s = false → s.cr.getLsbD 0 = true → 1 ≤ f.length → f.length ≤ 16 →
    (exec (.transmit f) s = .next { s with results := s.results ++ [.host [0x03#8]] } ↔
      inFlight s = true ∨ s.st = .receiving)) ∧
  (∀ f s, irq s = false → s.cr.getLsbD 0 = false → 1 ≤ f.length → f.length ≤ 16 →
    exec (.transmit f) s = .refused .notArmed)

/-- `44_host_api.md` R182: take the outcome, wait while the transmit runs, refuse when nothing could lift the wait. That the
meaning of a waiting `TXWAIT`, run by itself, answers the state unchanged is the model's choice (log entry 5): the spec's hold
is a step that is not enabled. -/
def Obligations.TxWaitTakesTheOutcome : Prop :=
  ∀ s, irq s = false →
    (s.txDone = some .ok → exec .txwait s = .next { s with
      txDone := none, results := s.results ++ [.host [0x00#8]] }) ∧
    (s.txDone = some (.err .arbitrationLost) → exec .txwait s = .next { s with
      txDone := none, results := s.results ++ [.host [0x14#8]] }) ∧
    (s.txDone = some (.err .ackFailure) → exec .txwait s = .next { s with
      txDone := none, results := s.results ++ [.host [0x15#8]] }) ∧
    (s.txDone = some (.err .lineError) → exec .txwait s = .next { s with
      txDone := none, results := s.results ++ [.host [0x16#8]] }) ∧
    (s.txDone = some .aborted → exec .txwait s = .next { s with
      txDone := none, results := s.results ++ [.host [0x17#8]] }) ∧
    (s.txDone = none → s.st = .transmitting → exec .txwait s = .next s) ∧
    (s.txDone = none → s.st ≠ .transmitting → exec .txwait s = .refused .noTransmitToCollect)

/-- `44_host_api.md` R183: pop the oldest frame, or wait. That the meaning of a waiting `RECEIVE`, run by itself, answers the
state unchanged is the model's choice (log entry 5): the spec's hold is a step that is not enabled. -/
def Obligations.ReceivePopsTheOldestFrame : Prop :=
  ∀ s, irq s = false →
    (∀ f q, s.rxq = f :: q → exec .receive s = .next { s with
      rxq := q, results := s.results ++ [.host (0x00#8 :: BitVec.ofNat 8 f.length :: f)] }) ∧
    (s.rxq = [] → exec .receive s = .next s)

/-- `44_host_api.md` R184: read and clear `last_error`. -/
def Obligations.LastErrorReadsAndClears : Prop :=
  ∀ s, irq s = false →
    (s.lastError = none → exec .lastError s = .next { s with results := s.results ++ [.host [0x00#8]] }) ∧
    (∀ k, s.lastError = some k → exec .lastError s = .next { s with
      lastError := none, results := s.results ++ [.host [k.code]] }) ∧
    BusErrorKind.code .bitRisingError = 0x11#8 ∧ BusErrorKind.code .shortBitPeriodError = 0x12#8 ∧
    BusErrorKind.code .longBitPeriodError = 0x13#8 ∧ BusErrorKind.code .arbitrationLost = 0x14#8 ∧
    BusErrorKind.code .ackFailure = 0x15#8 ∧ BusErrorKind.code .lineError = 0x16#8

/-- `60_exceptions.md` R216: while `irq = 1` every command waits and changes nothing. That the meaning of a waiting command, run
by itself, answers the state unchanged is the model's choice (log entry 5): R68 and R216 say that its step is not enabled. -/
def Obligations.NoHostStepWhileInterruptPending : Prop :=
  ∀ s, irq s = true →
    (∀ cfg, exec (.arm cfg) s = .next s) ∧ exec .disarm s = .next s ∧ (∀ f, exec (.transmit f) s = .next s) ∧
    exec .txwait s = .next s ∧ exec .receive s = .next s ∧ exec .lastError s = .next s

/-! ## LINE.raise -/

/-- `60_exceptions.md` R201: every event word, whichever row it is read as, sets its bits whatever `IER` and `st` are,
brings its byte with `RXBR`, and makes the peripheral ready with any of `TXBR`, `TXEND`, `ARBLST`, `TXERR`, `TXACKE`. -/
def Obligations.LineRaiseSetsStatus : Prop :=
  ∀ s bits rxd, s.cr.getLsbD 0 = true → legalEvent bits rxd = true →
    let t : State := { s with
      isr := s.isr ||| bits.setWidth 32
      rxdr := if bits.getLsbD 0 then rxd.setWidth 32 else s.rxdr
      txrdy := s.txrdy || decide (bits &&& 0x1B80#16 ≠ 0#16) }
    exec (.rxbr bits rxd) s = .next t ∧ exec (.rxend bits rxd) s = .next t ∧ exec (.bre bits rxd) s = .next t ∧
    exec (.sbpe bits rxd) s = .next t ∧ exec (.lbpe bits rxd) s = .next t ∧ exec (.arblst bits rxd) s = .next t ∧
    exec (.txbr bits rxd) s = .next t ∧ exec (.txend bits rxd) s = .next t ∧ exec (.txerr bits rxd) s = .next t ∧
    exec (.txacke bits rxd) s = .next t ∧ exec (.rxstart bits rxd) s = .next t

/-- `70_reset_and_hazards.md` R244: events raised again before they are served merge into one, and a byte received again
overwrites the one before: two raises of bits `b` with `RXBR` among them leave what the second alone leaves. -/
def Obligations.RepeatedRaisesMerge : Prop :=
  ∀ s bits x y, legalEvent bits x = true → legalEvent bits y = true → s.cr.getLsbD 0 = true →
    ∃ t u, exec (.rxbr bits x) s = .next t ∧ exec (.rxbr bits y) t = .next u ∧ exec (.rxbr bits y) s = .next u

/-! ## The sequencer -/

/-- `60_exceptions.md` R204, R207, R212: an invocation clears exactly the bits it takes (those pending and enabled), leaves
the others pending, and changes neither `CR`, `CFGR`, `IER`, `RXDR` nor anything of the other agents. -/
def Obligations.SequencerClearsExactlyWhatItTakes : Prop :=
  ∀ s, seqInvoke s = { seqInvoke s with
    cr := s.cr, cfgr := s.cfgr, rxdr := s.rxdr, ier := s.ier
    isr := s.isr &&& ~~~(s.isr &&& s.ier &&& 0x00003BBB#32)
    results := s.results, turns := s.turns, hostIn := s.hostIn, lineIn := s.lineIn, regIn := s.regIn }

/-- `42_receive_events.md` R141: `RXSTART` alone. -/
def Obligations.StartBitStartsAReceive : Prop :=
  ∀ s, takesOnly .rxstart s →
    (s.phase = .idle → seqInvoke s = { cleared s with
      phase := .receiving { buf := [], matched := false } }) ∧
    (s.phase ≠ .idle → seqInvoke s = { cleared s with
      faults := s.faults ++ [.protocolViolation s.st .rxstart] })

/-- `42_receive_events.md` R143, R144: `RXBR` alone. -/
def Obligations.ByteReceivedIsAppended : Prop :=
  ∀ s, takesOnly .rxbr s →
    (∀ rx, s.phase = .receiving rx → rx.buf.length < 16 → seqInvoke s = { cleared s with
      phase := .receiving {
        buf := rx.buf ++ [s.rxdr.extractLsb' 0 8]
        matched := if rx.buf = [] then accept s.cfgr (s.rxdr.extractLsb' 0 4) else rx.matched } }) ∧
    (∀ rx, s.phase = .receiving rx → 16 ≤ rx.buf.length → seqInvoke s = { cleared s with
      faults := s.faults ++ [.protocolViolation .receiving .rxbr] }) ∧
    (s.st ≠ .receiving → seqInvoke s = { cleared s with
      faults := s.faults ++ [.protocolViolation s.st .rxbr] })

/-- `42_receive_events.md` R145, R146: `RXEND` alone. -/
def Obligations.ReceiveCompleteDeliversOrIgnores : Prop :=
  ∀ s, takesOnly .rxend s →
    (∀ rx, s.phase = .receiving rx → rx.buf ≠ [] → rx.matched = true → seqInvoke s = { cleared s with
      phase := .idle
      rxq := channelAfter s.rxq rx.buf
      trace := s.trace ++ deliveryLabels s.rxq rx.buf }) ∧
    (∀ rx, s.phase = .receiving rx → rx.buf ≠ [] → rx.matched = false → seqInvoke s = { cleared s with
      phase := .idle, trace := s.trace ++ [.frameIgnored] }) ∧
    (∀ rx, s.phase = .receiving rx → rx.buf = [] → seqInvoke s = { cleared s with
      faults := s.faults ++ [.protocolViolation .receiving .rxend] }) ∧
    (s.st ≠ .receiving → seqInvoke s = { cleared s with
      faults := s.faults ++ [.protocolViolation s.st .rxend] })

/-- `42_receive_events.md` R146 for every capacity: a channel that is full loses its oldest frame and keeps its occupancy, any
other grows by one; nothing else changes but the labels. -/
def Obligations.DeliveryDropsOnlyTheOldest : Prop :=
  ∀ cap f s, 1 ≤ cap →
    (s.rxq.length = cap → ∃ g q, s.rxq = g :: q ∧ deliverAt cap f s = { s with
      rxq := q ++ [f], trace := s.trace ++ [.rxDropOldest g, .rxDelivered f] }) ∧
    (s.rxq.length ≠ cap → deliverAt cap f s = { s with
      rxq := s.rxq ++ [f], trace := s.trace ++ [.rxDelivered f] })

/-- `42_receive_events.md` R147 to R150: `BRE`, `SBPE` or `LBPE` alone. -/
def Obligations.ReceiveErrorDiscardsTheFrame : Prop :=
  ∀ s e k, (e, k) ∈ [(Event.bre, BusErrorKind.bitRisingError), (.sbpe, .shortBitPeriodError),
      (.lbpe, .longBitPeriodError)] → takesOnly e s →
    (s.st = .receiving → seqInvoke s = { cleared s with
      phase := .idle, lastError := some k, trace := s.trace ++ [.receiveFailed k] }) ∧
    (s.st ≠ .receiving → seqInvoke s = { cleared s with
      faults := s.faults ++ [.protocolViolation s.st e] })

/-- `43_transmit_events.md` R163: `TXBR` alone. The second clause is the byte request met with `TXRDY = 0`, which no raise
leaves: the write records its fault and the index still advances (`00_scope.md` R10). -/
def Obligations.ByteRequestWritesTheNextByte : Prop :=
  ∀ s, takesOnly .txbr s →
    (∀ tx b, s.phase = .transmitting tx → tx.frame[tx.idx]? = some b → s.txrdy = true → seqInvoke s = { cleared s with
      txdr := b.setWidth 32
      txrdy := false
      phase := .transmitting { tx with idx := tx.idx + 1, sub := .byteInFlight }
      trace := s.trace ++ [.txByte b] }) ∧
    (∀ tx, s.phase = .transmitting tx → tx.idx < tx.frame.length → s.txrdy = false → seqInvoke s = { cleared s with
      phase := .transmitting { tx with idx := tx.idx + 1, sub := .byteInFlight }
      faults := s.faults ++ [.txDataNotReady] }) ∧
    (∀ tx, s.phase = .transmitting tx → tx.frame.length ≤ tx.idx → seqInvoke s = { cleared s with
      faults := s.faults ++ [.protocolViolation .transmitting .txbr] }) ∧
    (s.st ≠ .transmitting → seqInvoke s = { cleared s with
      faults := s.faults ++ [.protocolViolation s.st .txbr] })

/-- `43_transmit_events.md` R164: `TXEND` alone. -/
def Obligations.TransmitCompleteReportsOk : Prop :=
  ∀ s, takesOnly .txend s →
    (∀ tx, s.phase = .transmitting tx → tx.idx = tx.frame.length → seqInvoke s = { cleared s with
      phase := .idle, txDone := some .ok, trace := s.trace ++ [.txSucceeded] }) ∧
    (∀ tx, s.phase = .transmitting tx → tx.idx ≠ tx.frame.length → seqInvoke s = { cleared s with
      faults := s.faults ++ [.protocolViolation .transmitting .txend] }) ∧
    (s.st ≠ .transmitting → seqInvoke s = { cleared s with
      faults := s.faults ++ [.protocolViolation s.st .txend] })

/-- `43_transmit_events.md` R165 to R168: `ARBLST`, `TXACKE` or `TXERR` alone. -/
def Obligations.TransmitErrorReportsItsKind : Prop :=
  ∀ s e k, (e, k) ∈ [(Event.arblst, TxErrorKind.arbitrationLost), (.txacke, .ackFailure), (.txerr, .lineError)] → takesOnly e s →
    (s.st = .transmitting → seqInvoke s = { cleared s with
      phase := .idle, txDone := some (.err k), lastError := some k.kind
      trace := s.trace ++ [.txFailed k.kind] }) ∧
    (s.st ≠ .transmitting → seqInvoke s = { cleared s with
      faults := s.faults ++ [.protocolViolation s.st e] })

/-- `60_exceptions.md` R205, R206, R209 (a), (c), (d), `43_transmit_events.md` R165: in every snapshot with a transmit error,
while `Transmitting`, the highest-priority transmit error alone is reported and the other `TXERRS` and all `TXPROG` bits are
dropped without fault. Then the receive bits are handled in their turn with `st = Idle`: each `RXERRS` bit is a violation in
`Idle`; without `RXSTART` so are `RXBR` and `RXEND` (the byte of `{ARBLST, RXBR}` is never taken for progress); `RXSTART` starts a
receive, which `RXBR` and `RXEND` then carry on: a byte is appended, an end without a byte is a violation in `Receiving`, and
an end with one delivers or ignores the header-only frame. -/
def Obligations.TransmitErrorSupersedesProgress : Prop :=
  ∀ s tx k, s.phase = .transmitting tx → firstTxError (s.isr &&& s.ier) = some k →
    let w : Word := s.isr &&& s.ier
    let b : Byte := s.rxdr.extractLsb' 0 8
    let m : Bool := accept s.cfgr (s.rxdr.extractLsb' 0 4)
    let t : State := { cleared s with
      phase := .idle
      txDone := some (.err k)
      lastError := some k.kind
      trace := s.trace ++ [.txFailed k.kind]
      faults := s.faults ++ violations .idle [.bre, .sbpe, .lbpe] w }
    (w.getLsbD 13 = false → seqInvoke s = { t with faults := t.faults ++ violations .idle [.rxbr, .rxend] w }) ∧
    (w.getLsbD 13 = true → w.getLsbD 0 = false → seqInvoke s = { t with
      phase := .receiving { buf := [], matched := false }
      faults := t.faults ++ violations .receiving [.rxend] w }) ∧
    (w.getLsbD 13 = true → w.getLsbD 0 = true → w.getLsbD 1 = false → seqInvoke s = { t with
      phase := .receiving { buf := [b], matched := m } }) ∧
    (w.getLsbD 13 = true → w.getLsbD 0 = true → w.getLsbD 1 = true → seqInvoke s = { t with
      rxq := if m then channelAfter s.rxq [b] else s.rxq
      trace := t.trace ++ if m then deliveryLabels s.rxq [b] else [.frameIgnored] })

/-- `60_exceptions.md` R204, R205, R206, R209 (e): in every snapshot with a receive error, while `Receiving`, the transmit
errors come first, each a violation in `Receiving`; then the highest-priority receive error alone is reported and the other
`RXERRS` bits, `RXBR` and `RXEND` are dropped without fault; an `RXSTART` is kept and starts a new receive; and the `TXPROG` bits,
which no receive error supersedes, are violations in the state then current. -/
def Obligations.ReceiveErrorSupersedesProgress : Prop :=
  ∀ s rx k, s.phase = .receiving rx → firstRxError (s.isr &&& s.ier) = some k →
    let w : Word := s.isr &&& s.ier
    let restarted : Bool := w.getLsbD 13
    seqInvoke s = { cleared s with
      phase := if restarted then .receiving { buf := [], matched := false } else .idle
      lastError := some k
      trace := s.trace ++ [.receiveFailed k]
      faults := s.faults ++ violations .receiving [.arblst, .txacke, .txerr] w ++
        violations (if restarted then .receiving else .idle) [.txbr, .txend] w }

/-- `60_exceptions.md` R205, R209 (b), (f), `43_transmit_events.md` R164: progress events of one snapshot are handled in the
order they occur in a frame: the byte of `{RXBR, RXEND}` is in the frame, `{RXSTART, RXBR, RXEND}` is a whole frame, and
`{TXBR, TXEND}` with one byte left writes it, completes, and leaves `TXRDY = 0`. -/
def Obligations.ProgressOfOneSnapshotInOrder : Prop :=
  (∀ s rx, s.phase = .receiving rx → rx.buf.length < 16 → s.isr &&& s.ier &&& 0x00003BBB#32 = 0x00000003#32 →
    let f : Frame := rx.buf ++ [s.rxdr.extractLsb' 0 8]
    let m : Bool := if rx.buf = [] then accept s.cfgr (s.rxdr.extractLsb' 0 4) else rx.matched
    seqInvoke s = { cleared s with
      phase := .idle
      rxq := if m then channelAfter s.rxq f else s.rxq
      trace := s.trace ++ if m then deliveryLabels s.rxq f else [.frameIgnored] }) ∧
  (∀ s, s.phase = .idle → s.isr &&& s.ier &&& 0x00003BBB#32 = 0x00002003#32 →
    let f : Frame := [s.rxdr.extractLsb' 0 8]
    let m : Bool := accept s.cfgr (s.rxdr.extractLsb' 0 4)
    seqInvoke s = { cleared s with
      rxq := if m then channelAfter s.rxq f else s.rxq
      trace := s.trace ++ if m then deliveryLabels s.rxq f else [.frameIgnored] }) ∧
  (∀ s tx b, s.phase = .transmitting tx → tx.frame[tx.idx]? = some b → tx.idx + 1 = tx.frame.length →
    s.txrdy = true → s.isr &&& s.ier &&& 0x00003BBB#32 = 0x00000300#32 →
    seqInvoke s = { cleared s with
      txdr := b.setWidth 32
      txrdy := false
      phase := .idle
      txDone := some .ok
      trace := s.trace ++ [.txByte b, .txSucceeded] })

/-- `60_exceptions.md` R207, R205: when the handling of one event records a fault, the remaining events of the snapshot are
still handled: the six error bits in `Idle` record six faults in their order; a byte request with no byte left records its
fault, and the completion of the same snapshot still completes. -/
def Obligations.ViolationsDoNotEndTheInvocation : Prop :=
  (∀ s, s.phase = .idle → s.isr &&& s.ier &&& 0x00003BBB#32 = 0x000018B8#32 → seqInvoke s = { cleared s with
    faults := s.faults ++ [.protocolViolation .idle .arblst, .protocolViolation .idle .txacke,
      .protocolViolation .idle .txerr, .protocolViolation .idle .bre, .protocolViolation .idle .sbpe,
      .protocolViolation .idle .lbpe] }) ∧
  (∀ s tx, s.phase = .transmitting tx → tx.idx = tx.frame.length →
    s.isr &&& s.ier &&& 0x00003BBB#32 = 0x00000300#32 → seqInvoke s = { cleared s with
      phase := .idle
      txDone := some .ok
      trace := s.trace ++ [.txSucceeded]
      faults := s.faults ++ [.protocolViolation .transmitting .txbr] })

/-! ## Whole-machine rules and properties -/

/-- `10_state.md` R22, R24, R26, R27, R39, `40_register_ops.md` R115: every step keeps the invariant `BlockInv`, from every
state that has it. -/
def Obligations.StepKeepsInv : Prop :=
  ∀ s t, BlockInv s → step s = .next t → BlockInv t

/-- The invariant holds after reset. -/
def Obligations.ResetHasInv : Prop := BlockInv State.reset

/-- `10_state.md` R22, `41_init_teardown.md` R132, R135: every step of `HOST`, `LINE` and `SEQ` keeps the invariant
`AgentInv`, from every state that has it. A raw register access is no step of theirs. -/
def Obligations.AgentStepKeepsAgentInv : Prop :=
  ∀ s t, AgentInv s → s.turns.head? ≠ some .reg → step s = .next t → AgentInv t

/-- The agents' invariant holds after reset. -/
def Obligations.ResetHasAgentInv : Prop := AgentInv State.reset

/-- `70_reset_and_hazards.md` R249, `20_memory.md` R75: no step changes `CFGR` while armed. -/
def Obligations.ConfigurationFrozenWhileArmed : Prop :=
  (∀ s t, s.cr.getLsbD 0 = true → step s = .next t → t.cfgr = s.cfgr) ∧
  (∀ s v, s.cr.getLsbD 0 = true →
    exec (.wrCfgr v) s = .next { s with faults := s.faults ++ [.configWriteWhileArmed] })

/-- `10_state.md` R26, R27, R28, `60_exceptions.md` R218: of the operations only `RECEIVE` changes the channel, only
`TXWAIT` and `DISARM` the completion slot, only `LAST_ERROR` the error latch. Handling an event changes the channel only for
`RXEND` while `Receiving`, the completion slot only for `TXEND`, `ARBLST`, `TXACKE` or `TXERR` while `Transmitting`, and the error latch
only for an error bit of the attempt in progress. -/
def Obligations.HandOffWriters : Prop :=
  (∀ i s t, exec i s = .next t →
    (t.rxq ≠ s.rxq → i = .receive) ∧ (t.txDone ≠ s.txDone → i = .txwait ∨ i = .disarm) ∧
    (t.lastError ≠ s.lastError → i = .lastError)) ∧
  (∀ e s,
    ((handle e s).rxq ≠ s.rxq → s.st = .receiving ∧ e = .rxend) ∧
    ((handle e s).txDone ≠ s.txDone → s.st = .transmitting ∧ e ∈ [Event.txend, .arblst, .txacke, .txerr]) ∧
    ((handle e s).lastError ≠ s.lastError →
      (s.st = .transmitting ∧ e ∈ [Event.arblst, .txacke, .txerr]) ∨
      (s.st = .receiving ∧ e ∈ [Event.bre, .sbpe, .lbpe])))

/-- `60_exceptions.md` R208, R214: one event raised and served on an armed block. In a cell with a transition no fault is
recorded; in a `PV` cell the event is ignored: `ProtocolViolation(st, bit)` is recorded and nothing changes but what the
raise itself wrote. -/
def Obligations.ViolationsAreExactlyThePVCells : Prop :=
  ∀ s e rxd turns words, s.turns = .line :: .seq :: turns → s.lineIn = eventWord e rxd :: words →
    (e ≠ .rxbr → rxd = 0#8) → s.cr.getLsbD 0 = true → s.ier = 0x00003BBB#32 → s.isr = 0#32 →
    ∃ t, runs 2 s = .next t ∧
      (transition s.phase e = true → t.faults = s.faults) ∧
      (transition s.phase e = false → t = { s with
        turns := turns
        lineIn := words
        rxdr := if e = .rxbr then rxd.setWidth 32 else s.rxdr
        txrdy := s.txrdy || decide (e ∈ [Event.txbr, .txend, .arblst, .txacke, .txerr])
        faults := s.faults ++ [.protocolViolation s.st e] })

/-- `42_receive_events.md` R153: a frame of 1 to 16 bytes injected from an armed idle state is, if its destination is
accepted, delivered whole and in order, behind the frames already in the channel (of which a full channel loses the oldest,
R146), and as many `RECEIVE` as the channel then holds frames return those frames in order, each once, the injected one last,
and leave the channel empty; otherwise no frame is delivered and no error is recorded. Each event is served before the next
(log entry 3). -/
def Obligations.InjectedFrameIsDeliveredOnce : Prop :=
  ∀ s h payload, let f : Frame := h :: payload
    f.length ≤ 16 → s.cr.getLsbD 0 = true → s.ier = 0x00003BBB#32 → s.isr = 0#32 → s.phase = .idle →
    (accept s.cfgr (h.extractLsb' 0 4) = true →
      let t : State := { s with
        rxdr := (f.getLastD 0#8).setWidth 32
        rxq := channelAfter s.rxq f
        trace := s.trace ++ deliveryLabels s.rxq f }
      runs (raisingSteps (injectWords f)) (raising (injectWords f) s) = .next t ∧
      receives t.rxq.length t = .next { t with rxq := [], results := s.results ++ (channelAfter s.rxq f).map received }) ∧
    (accept s.cfgr (h.extractLsb' 0 4) = false →
      runs (raisingSteps (injectWords f)) (raising (injectWords f) s) = .next { s with
        rxdr := (f.getLastD 0#8).setWidth 32
        trace := s.trace ++ [.frameIgnored] })

/-- `42_receive_events.md` R147 to R150: start bit, up to sixteen bytes and then a receive error never complete a frame,
return the block to `Idle`, and surface the error. -/
def Obligations.ReceiveErrorNeverCompletesAFrame : Prop :=
  ∀ s bs e k, (e, k) ∈ [(Event.bre, BusErrorKind.bitRisingError), (.sbpe, .shortBitPeriodError),
      (.lbpe, .longBitPeriodError)] →
    bs.length ≤ 16 → s.cr.getLsbD 0 = true → s.ier = 0x00003BBB#32 → s.isr = 0#32 → s.phase = .idle →
    let words := startAndBytes bs ++ [eventWord e 0#8]
    runs (raisingSteps words) (raising words s) = .next { s with
      rxdr := (bs.getLast?.map (BitVec.setWidth 32)).getD s.rxdr
      lastError := some k
      trace := s.trace ++ [.receiveFailed k] }

/-- `43_transmit_events.md` R164, R161, R163, `44_host_api.md` R182: `TRANSMIT` of a frame of N bytes, N-1 byte requests and
a completion resolve the call with success, and the bytes written to `TXDR` are the frame's bytes in order. -/
def Obligations.TransmittedFrameIsWrittenInOrder : Prop :=
  ∀ s h payload, let f : Frame := h :: payload
    f.length ≤ 16 → s.cr.getLsbD 0 = true → s.ier = 0x00003BBB#32 → s.isr = 0#32 → s.phase = .idle →
    s.txDone = none → s.txrdy = true →
    let words := transmitWords f.length
    let t : State := { s with
      txdr := (f.getLastD 0#8).setWidth 32
      txDone := some .ok
      trace := s.trace ++ f.map .txByte ++ [.txSucceeded]
      results := s.results ++ [.host [0x00#8]] }
    runs (1 + raisingSteps words) (commandThenRaising (encodeTransmit f) words s) = .next t ∧
    exec .txwait t = .next { t with txDone := none, results := t.results ++ [.host [0x00#8]] }
end

