-- ==== Sys2Proof/Laws/Bits.lean ====
section
/-!
SUPPORT. The bit-field facts behind the encodings: a concatenation read back field by field, and fields put together again.
-/
namespace Sys2Proof

theorem extract_high {n m : Nat} (a : BitVec n) (b : BitVec m) : (a ++ b).extractLsb' m n = a := by
  apply BitVec.eq_of_getLsbD_eq; intro i hi; simp [BitVec.getLsbD_append, hi]

theorem extract_low {n m k : Nat} (a : BitVec n) (b : BitVec m) (h : k ≤ m) :
    (a ++ b).extractLsb' 0 k = b.extractLsb' 0 k := by
  ext i hi; simp [BitVec.getLsbD_append, show i < m by omega]

theorem extract_within_low {n m lo k : Nat} (a : BitVec n) (b : BitVec m) (h : lo + k ≤ m) :
    (a ++ b).extractLsb' lo k = b.extractLsb' lo k := by
  ext i hi; simp [BitVec.getLsbD_append, show lo + i < m by omega]

theorem extract_within_high {n m lo k : Nat} (a : BitVec n) (b : BitVec m) (h : m ≤ lo) :
    (a ++ b).extractLsb' lo k = a.extractLsb' (lo - m) k := by
  ext i hi
  simp [BitVec.getLsbD_append, show ¬ lo + i < m by omega, show lo - m + i = lo + i - m by omega]

theorem extract_all {n : Nat} (a : BitVec n) : a.extractLsb' 0 n = a := by
  ext i hi; simp

theorem append_extract {n m : Nat} (w : BitVec (n + m)) : w.extractLsb' m n ++ w.extractLsb' 0 m = w := by
  apply BitVec.eq_of_getLsbD_eq; intro i hi
  simp only [BitVec.getLsbD_append, BitVec.getLsbD_extractLsb']
  split
  · simp [*]
  · simp [show m + (i - m) = i by omega, show i - m < n by omega]

theorem setWidth_low {n m : Nat} (w : BitVec (n + m)) : w.setWidth m = w.extractLsb' 0 m := by
  ext i hi; simp

/-- The fields of an event word; `30_encoding.md` R86. -/
theorem eventWord_fields (rxd : Byte) (bits : BitVec 16) :
    (rxd ++ bits : BitVec 24).setWidth 16 = bits ∧ (rxd ++ bits : BitVec 24).extractLsb' 16 8 = rxd := by
  refine ⟨?_, extract_high rxd bits⟩
  rw [setWidth_low (n := 8) (m := 16), extract_low rxd bits (Nat.le_refl _), extract_all]

/-- The fields of an event word put together; `30_encoding.md` R86. -/
theorem eventWord_of_fields (w : BitVec 24) : w.extractLsb' 16 8 ++ w.setWidth 16 = w := by
  rw [setWidth_low (n := 8) (m := 16)]; exact append_extract (n := 8) (m := 16) w

/-- The data bytes of a write put together; `30_encoding.md` R88. -/
theorem data_of_bytes (v : Word) :
    v.extractLsb' 24 8 ++ v.extractLsb' 16 8 ++ v.extractLsb' 8 8 ++ v.extractLsb' 0 8 = v := by
  have h : ∀ k, v.extractLsb' (8 + k) 8 ++ v.extractLsb' k 8 = v.extractLsb' k 16 := by
    intro k; apply BitVec.eq_of_getLsbD_eq; intro i hi
    simp only [BitVec.getLsbD_append, BitVec.getLsbD_extractLsb']
    split
    · simp [*]
    · simp [show 8 + k + (i - 8) = k + i by omega, show i - 8 < 8 by omega, hi]
  have h' : ∀ k, v.extractLsb' (8 + k) 16 ++ v.extractLsb' k 8 = v.extractLsb' k 24 := by
    intro k; apply BitVec.eq_of_getLsbD_eq; intro i hi
    simp only [BitVec.getLsbD_append, BitVec.getLsbD_extractLsb']
    split
    · simp [*]
    · simp [show 8 + k + (i - 8) = k + i by omega, show i - 8 < 16 by omega, hi]
  rw [h 16, h' 8]
  exact append_extract (n := 24) (m := 8) v

/-- The data bytes of a write taken apart; `30_encoding.md` R88. -/
theorem bytes_of_data (b3 b2 b1 b0 : Byte) :
    (b3 ++ b2 ++ b1 ++ b0 : Word).extractLsb' 24 8 = b3 ∧ (b3 ++ b2 ++ b1 ++ b0 : Word).extractLsb' 16 8 = b2 ∧
    (b3 ++ b2 ++ b1 ++ b0 : Word).extractLsb' 8 8 = b1 ∧ (b3 ++ b2 ++ b1 ++ b0 : Word).extractLsb' 0 8 = b0 := by
  refine ⟨?_, ?_, ?_, ?_⟩
  · refine (extract_within_high (b3 ++ b2 ++ b1) b0 (lo := 24) (k := 8) (by omega)).trans ?_
    refine (extract_within_high (b3 ++ b2) b1 (lo := 16) (k := 8) (by omega)).trans ?_
    exact extract_high b3 b2
  · refine (extract_within_high (b3 ++ b2 ++ b1) b0 (lo := 16) (k := 8) (by omega)).trans ?_
    refine (extract_within_high (b3 ++ b2) b1 (lo := 8) (k := 8) (by omega)).trans ?_
    exact (extract_low b3 b2 (Nat.le_refl _)).trans (extract_all b2)
  · refine (extract_within_high (b3 ++ b2 ++ b1) b0 (lo := 8) (k := 8) (by omega)).trans ?_
    exact (extract_low (b3 ++ b2) b1 (Nat.le_refl _)).trans (extract_all b1)
  · exact (extract_low (b3 ++ b2 ++ b1) b0 (Nat.le_refl _)).trans (extract_all b0)

/-- The set of additional addresses from its two bytes, and back; `30_encoding.md` R82. -/
theorem extra_of_bytes (x : BitVec 16) : x.extractLsb' 8 8 ++ x.extractLsb' 0 8 = x := append_extract (n := 8) (m := 8) x

theorem bytes_of_extra (eh el : Byte) :
    (eh ++ el : BitVec 16).extractLsb' 8 8 = eh ∧ (eh ++ el : BitVec 16).extractLsb' 0 8 = el :=
  ⟨extract_high eh el, (extract_low eh el (Nat.le_refl _)).trans (extract_all el)⟩

/-- The fields of `fl`; `30_encoding.md` R82. -/
theorem encodeFl_fields (cfg : Configuration) :
    (encodeFl cfg).extractLsb' 5 3 = 0#3 ∧ (encodeFl cfg).extractLsb' 2 3 = cfg.sft ∧
    (encodeFl cfg).getLsbD 1 = (cfg.tol == .extended) ∧ (encodeFl cfg).getLsbD 0 = cfg.listen := by
  have h : ∀ (a : BitVec 3) (t l : Bool),
      (0#3 ++ a ++ BitVec.ofBool t ++ BitVec.ofBool l : Byte).extractLsb' 5 3 = 0#3 ∧
      (0#3 ++ a ++ BitVec.ofBool t ++ BitVec.ofBool l : Byte).extractLsb' 2 3 = a ∧
      (0#3 ++ a ++ BitVec.ofBool t ++ BitVec.ofBool l : Byte).getLsbD 1 = t ∧
      (0#3 ++ a ++ BitVec.ofBool t ++ BitVec.ofBool l : Byte).getLsbD 0 = l := by decide
  exact h cfg.sft (cfg.tol == .extended) cfg.listen

/-- A byte with its reserved bits 0 is the `fl` of its own fields; `30_encoding.md` R82. -/
theorem encodeFl_of_fields (own : Option Byte) (extra : BitVec 16) (fl : Byte) (h : fl.extractLsb' 5 3 = 0#3) :
    encodeFl { own := own, extra := extra, tol := if fl.getLsbD 1 then .extended else .standard,
               sft := fl.extractLsb' 2 3, listen := fl.getLsbD 0 } = fl := by
  have h' : ∀ fl : Byte, fl.extractLsb' 5 3 = 0#3 →
      (0#3 ++ fl.extractLsb' 2 3 ++ BitVec.ofBool ((if fl.getLsbD 1 then Tolerance.extended else .standard) == .extended)
        ++ BitVec.ofBool (fl.getLsbD 0) : Byte) = fl := by decide
  exact h' fl h

/-- A header with its reserved bits 0 is made of its write bit and its offset; `30_encoding.md` R88. -/
theorem header_of_fields (hdr : Byte) (h : hdr.extractLsb' 5 2 = 0#2) :
    BitVec.ofBool (hdr.getLsbD 7) ++ 0#2 ++ BitVec.ofNat 5 (hdr.extractLsb' 0 5).toNat = hdr := by
  revert hdr; decide

/-- The register at an offset has that offset; `20_memory.md` R64. -/
theorem offset_ofOffset {off : Nat} {r : Reg} (h : Reg.ofOffset off = some r) : r.offset = off := by
  simpa using List.find?_some h

theorem ofOffset_offset (r : Reg) : Reg.ofOffset r.offset = some r := by cases r <;> rfl

/-- The highest-priority event of a set is in the set. -/
theorem firstEvent_mem {bits : BitVec 16} {e : Event} (h : firstEvent bits = some e) : bits.getLsbD e.bit = true := by
  simpa using List.find?_some h

/-- A legal event word has an event. -/
theorem firstEvent_of_legal {bits : BitVec 16} {rxd : Byte} (h : legalEvent bits rxd = true) :
    ∃ e, firstEvent bits = some e := by
  rcases hf : firstEvent bits with _ | e
  · exfalso
    simp only [legalEvent, Bool.and_eq_true, bne_iff_ne, ne_eq, beq_iff_eq] at h
    have hn : ∀ e : Event, e ∈ Event.all → ¬ bits.getLsbD e.bit = true := by simpa using List.find?_eq_none.mp hf
    apply h.1.1
    have hm : ∀ i < 16, bits.getLsbD i = true → (0x3BBB#16).getLsbD i = true := by
      intro i hi hb
      have := congrArg (fun x => BitVec.getLsbD x i) h.1.2
      simp [hi, hb] at this
      exact this
    have hall : ∀ i < 16, (0x3BBB#16).getLsbD i = true → ∃ e ∈ Event.all, e.bit = i := by decide
    ext i hi
    rw [← BitVec.getLsbD_eq_getElem, ← BitVec.getLsbD_eq_getElem]
    by_contra hc
    have hb : bits.getLsbD i = true := by simpa using hc
    obtain ⟨e, he, rfl⟩ := hall i hi (hm i hi hb)
    exact hn e he hb
  · exact ⟨e, rfl⟩

end Sys2Proof
end

