-- ==== Sys2Proof/Laws/State.lean ====
section
/-!
SUPPORT. One lemma per field per named update of the state.
-/
namespace Sys2Proof.Machine

section record
variable (f : RecordedFault) (s : State)
@[simp] theorem record_cr : (record f s).cr = s.cr := rfl
@[simp] theorem record_cfgr : (record f s).cfgr = s.cfgr := rfl
@[simp] theorem record_txdr : (record f s).txdr = s.txdr := rfl
@[simp] theorem record_rxdr : (record f s).rxdr = s.rxdr := rfl
@[simp] theorem record_isr : (record f s).isr = s.isr := rfl
@[simp] theorem record_ier : (record f s).ier = s.ier := rfl
@[simp] theorem record_txrdy : (record f s).txrdy = s.txrdy := rfl
@[simp] theorem record_phase : (record f s).phase = s.phase := rfl
@[simp] theorem record_rxq : (record f s).rxq = s.rxq := rfl
@[simp] theorem record_txDone : (record f s).txDone = s.txDone := rfl
@[simp] theorem record_lastError : (record f s).lastError = s.lastError := rfl
@[simp] theorem record_faults : (record f s).faults = s.faults ++ [f] := rfl
@[simp] theorem record_trace : (record f s).trace = s.trace := rfl
@[simp] theorem record_results : (record f s).results = s.results := rfl
@[simp] theorem record_turns : (record f s).turns = s.turns := rfl
@[simp] theorem record_hostIn : (record f s).hostIn = s.hostIn := rfl
@[simp] theorem record_lineIn : (record f s).lineIn = s.lineIn := rfl
@[simp] theorem record_regIn : (record f s).regIn = s.regIn := rfl
end record

section emit
variable (l : Label) (s : State)
@[simp] theorem emit_cr : (emit l s).cr = s.cr := rfl
@[simp] theorem emit_cfgr : (emit l s).cfgr = s.cfgr := rfl
@[simp] theorem emit_txdr : (emit l s).txdr = s.txdr := rfl
@[simp] theorem emit_rxdr : (emit l s).rxdr = s.rxdr := rfl
@[simp] theorem emit_isr : (emit l s).isr = s.isr := rfl
@[simp] theorem emit_ier : (emit l s).ier = s.ier := rfl
@[simp] theorem emit_txrdy : (emit l s).txrdy = s.txrdy := rfl
@[simp] theorem emit_phase : (emit l s).phase = s.phase := rfl
@[simp] theorem emit_rxq : (emit l s).rxq = s.rxq := rfl
@[simp] theorem emit_txDone : (emit l s).txDone = s.txDone := rfl
@[simp] theorem emit_lastError : (emit l s).lastError = s.lastError := rfl
@[simp] theorem emit_faults : (emit l s).faults = s.faults := rfl
@[simp] theorem emit_trace : (emit l s).trace = s.trace ++ [l] := rfl
@[simp] theorem emit_results : (emit l s).results = s.results := rfl
@[simp] theorem emit_turns : (emit l s).turns = s.turns := rfl
@[simp] theorem emit_hostIn : (emit l s).hostIn = s.hostIn := rfl
@[simp] theorem emit_lineIn : (emit l s).lineIn = s.lineIn := rfl
@[simp] theorem emit_regIn : (emit l s).regIn = s.regIn := rfl
end emit

section answer
variable (a : Answer) (s : State)
@[simp] theorem answer_cr : (answer a s).cr = s.cr := rfl
@[simp] theorem answer_cfgr : (answer a s).cfgr = s.cfgr := rfl
@[simp] theorem answer_txdr : (answer a s).txdr = s.txdr := rfl
@[simp] theorem answer_rxdr : (answer a s).rxdr = s.rxdr := rfl
@[simp] theorem answer_isr : (answer a s).isr = s.isr := rfl
@[simp] theorem answer_ier : (answer a s).ier = s.ier := rfl
@[simp] theorem answer_txrdy : (answer a s).txrdy = s.txrdy := rfl
@[simp] theorem answer_phase : (answer a s).phase = s.phase := rfl
@[simp] theorem answer_rxq : (answer a s).rxq = s.rxq := rfl
@[simp] theorem answer_txDone : (answer a s).txDone = s.txDone := rfl
@[simp] theorem answer_lastError : (answer a s).lastError = s.lastError := rfl
@[simp] theorem answer_faults : (answer a s).faults = s.faults := rfl
@[simp] theorem answer_trace : (answer a s).trace = s.trace := rfl
@[simp] theorem answer_results : (answer a s).results = s.results ++ [a] := rfl
@[simp] theorem answer_turns : (answer a s).turns = s.turns := rfl
@[simp] theorem answer_hostIn : (answer a s).hostIn = s.hostIn := rfl
@[simp] theorem answer_lineIn : (answer a s).lineIn = s.lineIn := rfl
@[simp] theorem answer_regIn : (answer a s).regIn = s.regIn := rfl
end answer

section answerCode
variable (c : Byte) (s : State)
@[simp] theorem answerCode_cr : (answerCode c s).cr = s.cr := rfl
@[simp] theorem answerCode_cfgr : (answerCode c s).cfgr = s.cfgr := rfl
@[simp] theorem answerCode_txdr : (answerCode c s).txdr = s.txdr := rfl
@[simp] theorem answerCode_rxdr : (answerCode c s).rxdr = s.rxdr := rfl
@[simp] theorem answerCode_isr : (answerCode c s).isr = s.isr := rfl
@[simp] theorem answerCode_ier : (answerCode c s).ier = s.ier := rfl
@[simp] theorem answerCode_txrdy : (answerCode c s).txrdy = s.txrdy := rfl
@[simp] theorem answerCode_phase : (answerCode c s).phase = s.phase := rfl
@[simp] theorem answerCode_rxq : (answerCode c s).rxq = s.rxq := rfl
@[simp] theorem answerCode_txDone : (answerCode c s).txDone = s.txDone := rfl
@[simp] theorem answerCode_lastError : (answerCode c s).lastError = s.lastError := rfl
@[simp] theorem answerCode_faults : (answerCode c s).faults = s.faults := rfl
@[simp] theorem answerCode_trace : (answerCode c s).trace = s.trace := rfl
@[simp] theorem answerCode_results : (answerCode c s).results = s.results ++ [.host [c]] := rfl
@[simp] theorem answerCode_turns : (answerCode c s).turns = s.turns := rfl
@[simp] theorem answerCode_hostIn : (answerCode c s).hostIn = s.hostIn := rfl
@[simp] theorem answerCode_lineIn : (answerCode c s).lineIn = s.lineIn := rfl
@[simp] theorem answerCode_regIn : (answerCode c s).regIn = s.regIn := rfl
end answerCode

section setPhase
variable (p : Phase) (s : State)
@[simp] theorem setPhase_cr : (setPhase p s).cr = s.cr := rfl
@[simp] theorem setPhase_cfgr : (setPhase p s).cfgr = s.cfgr := rfl
@[simp] theorem setPhase_txdr : (setPhase p s).txdr = s.txdr := rfl
@[simp] theorem setPhase_rxdr : (setPhase p s).rxdr = s.rxdr := rfl
@[simp] theorem setPhase_isr : (setPhase p s).isr = s.isr := rfl
@[simp] theorem setPhase_ier : (setPhase p s).ier = s.ier := rfl
@[simp] theorem setPhase_txrdy : (setPhase p s).txrdy = s.txrdy := rfl
@[simp] theorem setPhase_phase : (setPhase p s).phase = p := rfl
@[simp] theorem setPhase_rxq : (setPhase p s).rxq = s.rxq := rfl
@[simp] theorem setPhase_txDone : (setPhase p s).txDone = s.txDone := rfl
@[simp] theorem setPhase_lastError : (setPhase p s).lastError = s.lastError := rfl
@[simp] theorem setPhase_faults : (setPhase p s).faults = s.faults := rfl
@[simp] theorem setPhase_trace : (setPhase p s).trace = s.trace := rfl
@[simp] theorem setPhase_results : (setPhase p s).results = s.results := rfl
@[simp] theorem setPhase_turns : (setPhase p s).turns = s.turns := rfl
@[simp] theorem setPhase_hostIn : (setPhase p s).hostIn = s.hostIn := rfl
@[simp] theorem setPhase_lineIn : (setPhase p s).lineIn = s.lineIn := rfl
@[simp] theorem setPhase_regIn : (setPhase p s).regIn = s.regIn := rfl
end setPhase

section violation
variable (e : Event) (s : State)
@[simp] theorem violation_cr : (violation e s).cr = s.cr := rfl
@[simp] theorem violation_cfgr : (violation e s).cfgr = s.cfgr := rfl
@[simp] theorem violation_txdr : (violation e s).txdr = s.txdr := rfl
@[simp] theorem violation_rxdr : (violation e s).rxdr = s.rxdr := rfl
@[simp] theorem violation_isr : (violation e s).isr = s.isr := rfl
@[simp] theorem violation_ier : (violation e s).ier = s.ier := rfl
@[simp] theorem violation_txrdy : (violation e s).txrdy = s.txrdy := rfl
@[simp] theorem violation_phase : (violation e s).phase = s.phase := rfl
@[simp] theorem violation_rxq : (violation e s).rxq = s.rxq := rfl
@[simp] theorem violation_txDone : (violation e s).txDone = s.txDone := rfl
@[simp] theorem violation_lastError : (violation e s).lastError = s.lastError := rfl
@[simp] theorem violation_faults : (violation e s).faults = s.faults ++ [.protocolViolation s.st e] := rfl
@[simp] theorem violation_trace : (violation e s).trace = s.trace := rfl
@[simp] theorem violation_results : (violation e s).results = s.results := rfl
@[simp] theorem violation_turns : (violation e s).turns = s.turns := rfl
@[simp] theorem violation_hostIn : (violation e s).hostIn = s.hostIn := rfl
@[simp] theorem violation_lineIn : (violation e s).lineIn = s.lineIn := rfl
@[simp] theorem violation_regIn : (violation e s).regIn = s.regIn := rfl
end violation

section writeCr
variable (v : Word) (s : State)
@[simp] theorem writeCr_cr : (writeCr v s).cr = v &&& 0x00000001#32 := rfl
@[simp] theorem writeCr_cfgr : (writeCr v s).cfgr = s.cfgr := rfl
@[simp] theorem writeCr_txdr : (writeCr v s).txdr = s.txdr := rfl
@[simp] theorem writeCr_rxdr : (writeCr v s).rxdr = s.rxdr := rfl
@[simp] theorem writeCr_isr : (writeCr v s).isr = s.isr := rfl
@[simp] theorem writeCr_ier : (writeCr v s).ier = s.ier := rfl
@[simp] theorem writeCr_txrdy : (writeCr v s).txrdy = if v.getLsbD 0 then (if armed s then s.txrdy else true) else false := rfl
@[simp] theorem writeCr_phase : (writeCr v s).phase = s.phase := rfl
@[simp] theorem writeCr_rxq : (writeCr v s).rxq = s.rxq := rfl
@[simp] theorem writeCr_txDone : (writeCr v s).txDone = s.txDone := rfl
@[simp] theorem writeCr_lastError : (writeCr v s).lastError = s.lastError := rfl
@[simp] theorem writeCr_faults : (writeCr v s).faults = s.faults := rfl
@[simp] theorem writeCr_trace : (writeCr v s).trace = s.trace := rfl
@[simp] theorem writeCr_results : (writeCr v s).results = s.results := rfl
@[simp] theorem writeCr_turns : (writeCr v s).turns = s.turns := rfl
@[simp] theorem writeCr_hostIn : (writeCr v s).hostIn = s.hostIn := rfl
@[simp] theorem writeCr_lineIn : (writeCr v s).lineIn = s.lineIn := rfl
@[simp] theorem writeCr_regIn : (writeCr v s).regIn = s.regIn := rfl
end writeCr

section writeIsr
variable (v : Word) (s : State)
@[simp] theorem writeIsr_cr : (writeIsr v s).cr = s.cr := rfl
@[simp] theorem writeIsr_cfgr : (writeIsr v s).cfgr = s.cfgr := rfl
@[simp] theorem writeIsr_txdr : (writeIsr v s).txdr = s.txdr := rfl
@[simp] theorem writeIsr_rxdr : (writeIsr v s).rxdr = s.rxdr := rfl
@[simp] theorem writeIsr_isr : (writeIsr v s).isr = s.isr &&& ~~~(v &&& 0x00003BBB#32) := rfl
@[simp] theorem writeIsr_ier : (writeIsr v s).ier = s.ier := rfl
@[simp] theorem writeIsr_txrdy : (writeIsr v s).txrdy = s.txrdy := rfl
@[simp] theorem writeIsr_phase : (writeIsr v s).phase = s.phase := rfl
@[simp] theorem writeIsr_rxq : (writeIsr v s).rxq = s.rxq := rfl
@[simp] theorem writeIsr_txDone : (writeIsr v s).txDone = s.txDone := rfl
@[simp] theorem writeIsr_lastError : (writeIsr v s).lastError = s.lastError := rfl
@[simp] theorem writeIsr_faults : (writeIsr v s).faults = s.faults := rfl
@[simp] theorem writeIsr_trace : (writeIsr v s).trace = s.trace := rfl
@[simp] theorem writeIsr_results : (writeIsr v s).results = s.results := rfl
@[simp] theorem writeIsr_turns : (writeIsr v s).turns = s.turns := rfl
@[simp] theorem writeIsr_hostIn : (writeIsr v s).hostIn = s.hostIn := rfl
@[simp] theorem writeIsr_lineIn : (writeIsr v s).lineIn = s.lineIn := rfl
@[simp] theorem writeIsr_regIn : (writeIsr v s).regIn = s.regIn := rfl
end writeIsr

section writeIer
variable (v : Word) (s : State)
@[simp] theorem writeIer_cr : (writeIer v s).cr = s.cr := rfl
@[simp] theorem writeIer_cfgr : (writeIer v s).cfgr = s.cfgr := rfl
@[simp] theorem writeIer_txdr : (writeIer v s).txdr = s.txdr := rfl
@[simp] theorem writeIer_rxdr : (writeIer v s).rxdr = s.rxdr := rfl
@[simp] theorem writeIer_isr : (writeIer v s).isr = s.isr := rfl
@[simp] theorem writeIer_ier : (writeIer v s).ier = v &&& 0x00003BBB#32 := rfl
@[simp] theorem writeIer_txrdy : (writeIer v s).txrdy = s.txrdy := rfl
@[simp] theorem writeIer_phase : (writeIer v s).phase = s.phase := rfl
@[simp] theorem writeIer_rxq : (writeIer v s).rxq = s.rxq := rfl
@[simp] theorem writeIer_txDone : (writeIer v s).txDone = s.txDone := rfl
@[simp] theorem writeIer_lastError : (writeIer v s).lastError = s.lastError := rfl
@[simp] theorem writeIer_faults : (writeIer v s).faults = s.faults := rfl
@[simp] theorem writeIer_trace : (writeIer v s).trace = s.trace := rfl
@[simp] theorem writeIer_results : (writeIer v s).results = s.results := rfl
@[simp] theorem writeIer_turns : (writeIer v s).turns = s.turns := rfl
@[simp] theorem writeIer_hostIn : (writeIer v s).hostIn = s.hostIn := rfl
@[simp] theorem writeIer_lineIn : (writeIer v s).lineIn = s.lineIn := rfl
@[simp] theorem writeIer_regIn : (writeIer v s).regIn = s.regIn := rfl
end writeIer

section endTransmit
variable (o : TxOutcome) (s : State)
@[simp] theorem endTransmit_cr : (endTransmit o s).cr = s.cr := rfl
@[simp] theorem endTransmit_cfgr : (endTransmit o s).cfgr = s.cfgr := rfl
@[simp] theorem endTransmit_txdr : (endTransmit o s).txdr = s.txdr := rfl
@[simp] theorem endTransmit_rxdr : (endTransmit o s).rxdr = s.rxdr := rfl
@[simp] theorem endTransmit_isr : (endTransmit o s).isr = s.isr := rfl
@[simp] theorem endTransmit_ier : (endTransmit o s).ier = s.ier := rfl
@[simp] theorem endTransmit_txrdy : (endTransmit o s).txrdy = s.txrdy := rfl
@[simp] theorem endTransmit_phase : (endTransmit o s).phase = .idle := rfl
@[simp] theorem endTransmit_rxq : (endTransmit o s).rxq = s.rxq := rfl
@[simp] theorem endTransmit_txDone : (endTransmit o s).txDone = some o := rfl
@[simp] theorem endTransmit_lastError : (endTransmit o s).lastError = s.lastError := rfl
@[simp] theorem endTransmit_faults : (endTransmit o s).faults = s.faults := rfl
@[simp] theorem endTransmit_trace : (endTransmit o s).trace = s.trace := rfl
@[simp] theorem endTransmit_results : (endTransmit o s).results = s.results := rfl
@[simp] theorem endTransmit_turns : (endTransmit o s).turns = s.turns := rfl
@[simp] theorem endTransmit_hostIn : (endTransmit o s).hostIn = s.hostIn := rfl
@[simp] theorem endTransmit_lineIn : (endTransmit o s).lineIn = s.lineIn := rfl
@[simp] theorem endTransmit_regIn : (endTransmit o s).regIn = s.regIn := rfl
end endTransmit

section rxError
variable (k : BusErrorKind) (s : State)
@[simp] theorem rxError_cr : (rxError k s).cr = s.cr := rfl
@[simp] theorem rxError_cfgr : (rxError k s).cfgr = s.cfgr := rfl
@[simp] theorem rxError_txdr : (rxError k s).txdr = s.txdr := rfl
@[simp] theorem rxError_rxdr : (rxError k s).rxdr = s.rxdr := rfl
@[simp] theorem rxError_isr : (rxError k s).isr = s.isr := rfl
@[simp] theorem rxError_ier : (rxError k s).ier = s.ier := rfl
@[simp] theorem rxError_txrdy : (rxError k s).txrdy = s.txrdy := rfl
@[simp] theorem rxError_phase : (rxError k s).phase = .idle := rfl
@[simp] theorem rxError_rxq : (rxError k s).rxq = s.rxq := rfl
@[simp] theorem rxError_txDone : (rxError k s).txDone = s.txDone := rfl
@[simp] theorem rxError_lastError : (rxError k s).lastError = some k := rfl
@[simp] theorem rxError_faults : (rxError k s).faults = s.faults := rfl
@[simp] theorem rxError_trace : (rxError k s).trace = s.trace ++ [.receiveFailed k] := rfl
@[simp] theorem rxError_results : (rxError k s).results = s.results := rfl
@[simp] theorem rxError_turns : (rxError k s).turns = s.turns := rfl
@[simp] theorem rxError_hostIn : (rxError k s).hostIn = s.hostIn := rfl
@[simp] theorem rxError_lineIn : (rxError k s).lineIn = s.lineIn := rfl
@[simp] theorem rxError_regIn : (rxError k s).regIn = s.regIn := rfl
end rxError

section raised
variable (bits : BitVec 16) (rxd : Byte) (s : State)
@[simp] theorem raised_cr : (raised bits rxd s).cr = s.cr := rfl
@[simp] theorem raised_cfgr : (raised bits rxd s).cfgr = s.cfgr := rfl
@[simp] theorem raised_txdr : (raised bits rxd s).txdr = s.txdr := rfl
@[simp] theorem raised_rxdr : (raised bits rxd s).rxdr = if bits.getLsbD 0 then zextByte rxd else s.rxdr := rfl
@[simp] theorem raised_isr : (raised bits rxd s).isr = s.isr ||| bits.setWidth 32 := rfl
@[simp] theorem raised_ier : (raised bits rxd s).ier = s.ier := rfl
@[simp] theorem raised_txrdy : (raised bits rxd s).txrdy = if (bits.setWidth 32 &&& 0x00001B80#32) != 0#32 then true else s.txrdy := rfl
@[simp] theorem raised_phase : (raised bits rxd s).phase = s.phase := rfl
@[simp] theorem raised_rxq : (raised bits rxd s).rxq = s.rxq := rfl
@[simp] theorem raised_txDone : (raised bits rxd s).txDone = s.txDone := rfl
@[simp] theorem raised_lastError : (raised bits rxd s).lastError = s.lastError := rfl
@[simp] theorem raised_faults : (raised bits rxd s).faults = s.faults := rfl
@[simp] theorem raised_trace : (raised bits rxd s).trace = s.trace := rfl
@[simp] theorem raised_results : (raised bits rxd s).results = s.results := rfl
@[simp] theorem raised_turns : (raised bits rxd s).turns = s.turns := rfl
@[simp] theorem raised_hostIn : (raised bits rxd s).hostIn = s.hostIn := rfl
@[simp] theorem raised_lineIn : (raised bits rxd s).lineIn = s.lineIn := rfl
@[simp] theorem raised_regIn : (raised bits rxd s).regIn = s.regIn := rfl
end raised

section st
variable (s : State)
@[simp] theorem st_record (f : RecordedFault) : (record f s).st = s.st := rfl
@[simp] theorem st_emit (l : Label) : (emit l s).st = s.st := rfl
@[simp] theorem st_answer (a : Answer) : (answer a s).st = s.st := rfl
@[simp] theorem st_violation (e : Event) : (violation e s).st = s.st := rfl
@[simp] theorem st_setPhase (p : Phase) : (setPhase p s).st = p.st := rfl
@[simp] theorem st_writeIsr (v : Word) : (writeIsr v s).st = s.st := rfl
end st

end Sys2Proof.Machine
end

