-- ==== Sys2Proof/Laws/Ops.lean ====
section
/-!
SUPPORT. What each shared operation can do, said once.
-/
namespace Sys2Proof.Machine
open Sys2Proof.Safety

/-! ## Register accesses -/

theorem writeCfgr_armed {v : Word} {s : State} (h : armed s = true) :
    writeCfgr v s = record .configWriteWhileArmed s := by simp [writeCfgr, h]

theorem writeCfgr_disarmed {v : Word} {s : State} (h : armed s = false) :
    writeCfgr v s = { s with cfgr := v &&& 0xFFFF000F#32 } := by simp [writeCfgr, h]

theorem writeTxdr_ready {v : Word} {s : State} (h : s.txrdy = true) :
    writeTxdr v s = emit (.txByte (lowByte v)) { s with txdr := zextByte (lowByte v), txrdy := false } := by
  simp [writeTxdr, h]

theorem writeTxdr_notReady {v : Word} {s : State} (h : s.txrdy = false) :
    writeTxdr v s = record .txDataNotReady s := by simp [writeTxdr, h]

/-- A register write reaches no hand-off structure, no live buffer, no result and no input. -/
structure SameBlock (s t : State) : Prop where
  phase : t.phase = s.phase
  rxq : t.rxq = s.rxq
  txDone : t.txDone = s.txDone
  lastError : t.lastError = s.lastError
  results : t.results = s.results
  turns : t.turns = s.turns
  hostIn : t.hostIn = s.hostIn
  lineIn : t.lineIn = s.lineIn
  regIn : t.regIn = s.regIn

theorem writeReg_sameBlock (r : Reg) (v : Word) (s : State) : SameBlock s (writeReg r v s) := by
  cases r <;> simp only [writeReg, writeCr, writeCfgr, writeTxdr, writeRxdr, writeIsr, writeIer]
  case cfgr => split <;> constructor <;> rfl
  case txdr => split <;> constructor <;> rfl
  all_goals constructor <;> rfl

/-! ## The agents' guards -/

theorem lineRaise_eq_next {bits : BitVec 16} {rxd : Byte} {s t : State} :
    lineRaise bits rxd s = .next t ↔ armed s = true ∧ legalEvent bits rxd = true ∧ t = raised bits rxd s := by
  unfold lineRaise lineEnabled
  cases armed s <;> cases legalEvent bits rxd <;> simp [eq_comm]

theorem hostStep_enabled {k : State → Host.Outcome State Fault Refusal} {s : State} (h : irq s = false) :
    hostStep k s = k s := by simp [hostStep, hostEnabled, h]

theorem hostStep_waiting {k : State → Host.Outcome State Fault Refusal} {s : State} (h : irq s = true) :
    hostStep k s = .next s := by simp [hostStep, hostEnabled, h]

/-! ## The inbound channel and the ends of an attempt -/

theorem deliverAt_full {cap : Nat} {f g : Frame} {q : List Frame} {s : State} (hq : s.rxq = g :: q)
    (h : s.rxq.length = cap) :
    deliverAt cap f s = emit (.rxDelivered f) (emit (.rxDropOldest g) { s with rxq := q ++ [f] }) := by
  simp only [deliverAt, h, if_true]; rw [hq]

theorem deliverAt_room {cap : Nat} {f : Frame} {s : State} (h : s.rxq.length ≠ cap) :
    deliverAt cap f s = emit (.rxDelivered f) { s with rxq := s.rxq ++ [f] } := by
  simp [deliverAt, h]

theorem setSub_eq (x : TxSub) (s : State) : setSub x s = { s with phase := (setSub x s).phase } := by
  unfold setSub; split <;> rfl

theorem endTransmit_setSub (x : TxSub) (o : TxOutcome) (l : Label) (s : State) :
    endTransmit o (emit l (setSub x s)) = endTransmit o (emit l s) := by
  rw [setSub_eq]; rfl

theorem txError_eq (k : TxErrorKind) (s : State) :
    txError k s = { s with
      phase := .idle, txDone := some (.err k), lastError := some k.kind, trace := s.trace ++ [.txFailed k.kind] } := by
  unfold txError; rw [setSub_eq]; rfl

/-! ## Handling one event -/

/-- What handling an event never changes. -/
structure SameBus (s t : State) : Prop where
  cr : t.cr = s.cr
  cfgr : t.cfgr = s.cfgr
  rxdr : t.rxdr = s.rxdr
  isr : t.isr = s.isr
  ier : t.ier = s.ier
  results : t.results = s.results
  turns : t.turns = s.turns
  hostIn : t.hostIn = s.hostIn
  lineIn : t.lineIn = s.lineIn
  regIn : t.regIn = s.regIn

theorem SameBus.rfl' (s : State) : SameBus s s := by constructor <;> rfl

theorem SameBus.trans' {s t u : State} (h : SameBus s t) (k : SameBus t u) : SameBus s u := by
  constructor
  · rw [k.cr, h.cr]
  · rw [k.cfgr, h.cfgr]
  · rw [k.rxdr, h.rxdr]
  · rw [k.isr, h.isr]
  · rw [k.ier, h.ier]
  · rw [k.results, h.results]
  · rw [k.turns, h.turns]
  · rw [k.hostIn, h.hostIn]
  · rw [k.lineIn, h.lineIn]
  · rw [k.regIn, h.regIn]

theorem violation_sameBus (e : Event) (s : State) : SameBus s (violation e s) := by constructor <;> rfl

theorem rxError_sameBus (k : BusErrorKind) (s : State) : SameBus s (rxError k s) := by constructor <;> rfl

theorem txError_sameBus (k : TxErrorKind) (s : State) : SameBus s (txError k s) := by
  rw [txError_eq]; constructor <;> rfl

theorem deliverAt_sameBus (cap : Nat) (f : Frame) (s : State) : SameBus s (deliverAt cap f s) := by
  unfold deliverAt; split
  · split <;> constructor <;> rfl
  · constructor <;> rfl

theorem writeTxdr_sameBus (v : Word) (s : State) : SameBus s (writeTxdr v s) := by
  unfold writeTxdr; split <;> constructor <;> rfl

theorem setPhase_sameBus (p : Phase) {s t : State} (h : SameBus s t) : SameBus s (setPhase p t) :=
  h.trans' (by constructor <;> rfl)

theorem handleRxError_sameBus (e : Event) (k : BusErrorKind) (s : State) : SameBus s (handleRxError e k s) := by
  unfold handleRxError; split
  · exact rxError_sameBus k s
  · exact violation_sameBus e s

theorem handleTxError_sameBus (e : Event) (k : TxErrorKind) (s : State) : SameBus s (handleTxError e k s) := by
  unfold handleTxError; split
  · exact txError_sameBus k s
  · exact violation_sameBus e s

theorem handleRxstart_sameBus (s : State) : SameBus s (handleRxstart s) := by
  unfold handleRxstart; split
  · exact setPhase_sameBus _ (.rfl' s)
  · exact violation_sameBus _ s

theorem handleRxbr_sameBus (s : State) : SameBus s (handleRxbr s) := by
  unfold handleRxbr; split
  · dsimp only; split
    · exact setPhase_sameBus _ (.rfl' s)
    · exact violation_sameBus _ s
  · exact violation_sameBus _ s

theorem handleRxend_sameBus (s : State) : SameBus s (handleRxend s) := by
  unfold handleRxend; split
  · split
    · refine setPhase_sameBus _ ?_
      split
      · exact deliverAt_sameBus _ _ s
      · constructor <;> rfl
    · exact violation_sameBus _ s
  · exact violation_sameBus _ s

theorem handleTxbr_sameBus (s : State) : SameBus s (handleTxbr s) := by
  unfold handleTxbr; split
  · split
    · exact setPhase_sameBus _ (writeTxdr_sameBus _ s)
    · exact violation_sameBus _ s
  · exact violation_sameBus _ s

theorem handleTxend_sameBus (s : State) : SameBus s (handleTxend s) := by
  unfold handleTxend; split
  · split
    · rw [endTransmit_setSub]; constructor <;> rfl
    · exact violation_sameBus _ s
  · exact violation_sameBus _ s

theorem handle_sameBus (e : Event) (s : State) : SameBus s (handle e s) := by
  cases e with
  | arblst => exact handleTxError_sameBus _ _ s
  | txacke => exact handleTxError_sameBus _ _ s
  | txerr => exact handleTxError_sameBus _ _ s
  | bre => exact handleRxError_sameBus _ _ s
  | sbpe => exact handleRxError_sameBus _ _ s
  | lbpe => exact handleRxError_sameBus _ _ s
  | rxstart => exact handleRxstart_sameBus s
  | rxbr => exact handleRxbr_sameBus s
  | rxend => exact handleRxend_sameBus s
  | txbr => exact handleTxbr_sameBus s
  | txend => exact handleTxend_sameBus s

/-- In a `PV` cell of `60_exceptions.md` R208 the event is ignored. -/
theorem handle_violation {e : Event} {s : State} (h : transition s.phase e = false) : handle e s = violation e s := by
  cases e <;>
    simp only [handle, handleArblst, handleTxacke, handleTxerr, handleTxError, handleBre, handleSbpe, handleLbpe,
      handleRxError, handleRxstart, handleRxbr, handleRxend, handleTxbr, handleTxend] <;>
    split <;> simp_all [transition]

end Sys2Proof.Machine
end

