-- ==== Sys2Proof/Laws/PerInstr.lean ====
section
/-!
SUPPORT. Per instruction: the encoding of a well-formed operation carries the match of its own row of
`spec/opcode_table.json` (`30_encoding.md` R84, R87, R89).
-/
namespace Sys2Proof.Laws.EncodedRow
open Sys2Proof

/-- What selects a row of the table: a first byte, a bit of an event word, or a header. -/
inductive RowMatch where
  | command (op : Byte)
  | event (bit : Nat)
  | access (header : Byte)
  deriving DecidableEq, Repr

/-- The table's match of each row. -/
def rowOf : Instr → RowMatch
  | .arm _ => .command 0x01#8
  | .disarm => .command 0x02#8
  | .transmit _ => .command 0x03#8
  | .txwait => .command 0x04#8
  | .receive => .command 0x05#8
  | .lastError => .command 0x06#8
  | .rxbr _ _ => .event 0
  | .rxend _ _ => .event 1
  | .bre _ _ => .event 3
  | .sbpe _ _ => .event 4
  | .lbpe _ _ => .event 5
  | .arblst _ _ => .event 7
  | .txbr _ _ => .event 8
  | .txend _ _ => .event 9
  | .txerr _ _ => .event 11
  | .txacke _ _ => .event 12
  | .rxstart _ _ => .event 13
  | .rdCr => .access 0x00#8
  | .wrCr _ => .access 0x80#8
  | .rdCfgr => .access 0x04#8
  | .wrCfgr _ => .access 0x84#8
  | .rdTxdr => .access 0x08#8
  | .wrTxdr _ => .access 0x88#8
  | .rdRxdr => .access 0x0C#8
  | .wrRxdr _ => .access 0x8C#8
  | .rdIsr => .access 0x10#8
  | .wrIsr _ => .access 0x90#8
  | .rdIer => .access 0x14#8
  | .wrIer _ => .access 0x94#8

/-- The encoded operation carries the row's match. -/
def carries : RowMatch → Wire → Bool
  | .command op, .host (b :: _) => b == op
  | .event n, .line w => w.getLsbD n
  | .access h, .reg (b :: _) => b == h
  | _, _ => false

/-- The encoding of a well-formed operation carries its own row's match. -/
def Statement (i : Instr) : Prop := i.wellFormed = true → carries (rowOf i) (encode i) = true

/-- The bit of a well-formed event row is set in its word; `30_encoding.md` R86, R87. -/
theorem event_carries {e : Event} {bits : BitVec 16} {rxd : Byte} (h : wellFormedEvent e bits rxd = true) :
    (encodeEvent bits rxd).getLsbD e.bit = true := by
  simp only [wellFormedEvent, Bool.and_eq_true, beq_iff_eq] at h
  have hb : e.bit < 16 := by cases e <;> decide
  have hw : (rxd ++ bits : BitVec (8 + 16)).getLsbD e.bit = bits.getLsbD e.bit := by
    rw [BitVec.getLsbD_append, if_pos hb]
  exact hw.trans (firstEvent_mem h.2)

theorem arm (cfg : Configuration) : Statement (.arm cfg) := fun _ => rfl
theorem disarm : Statement .disarm := fun _ => rfl
theorem transmit (frame : Frame) : Statement (.transmit frame) := fun _ => rfl
theorem txwait : Statement .txwait := fun _ => rfl
theorem receive : Statement .receive := fun _ => rfl
theorem lastError : Statement .lastError := fun _ => rfl
theorem rxbr (bits : BitVec 16) (rxd : Byte) : Statement (.rxbr bits rxd) := event_carries (e := .rxbr)
theorem rxend (bits : BitVec 16) (rxd : Byte) : Statement (.rxend bits rxd) := event_carries (e := .rxend)
theorem bre (bits : BitVec 16) (rxd : Byte) : Statement (.bre bits rxd) := event_carries (e := .bre)
theorem sbpe (bits : BitVec 16) (rxd : Byte) : Statement (.sbpe bits rxd) := event_carries (e := .sbpe)
theorem lbpe (bits : BitVec 16) (rxd : Byte) : Statement (.lbpe bits rxd) := event_carries (e := .lbpe)
theorem arblst (bits : BitVec 16) (rxd : Byte) : Statement (.arblst bits rxd) := event_carries (e := .arblst)
theorem txbr (bits : BitVec 16) (rxd : Byte) : Statement (.txbr bits rxd) := event_carries (e := .txbr)
theorem txend (bits : BitVec 16) (rxd : Byte) : Statement (.txend bits rxd) := event_carries (e := .txend)
theorem txerr (bits : BitVec 16) (rxd : Byte) : Statement (.txerr bits rxd) := event_carries (e := .txerr)
theorem txacke (bits : BitVec 16) (rxd : Byte) : Statement (.txacke bits rxd) := event_carries (e := .txacke)
theorem rxstart (bits : BitVec 16) (rxd : Byte) : Statement (.rxstart bits rxd) := event_carries (e := .rxstart)
theorem rdCr : Statement .rdCr := fun _ => rfl
theorem wrCr (v : Word) : Statement (.wrCr v) := fun _ => rfl
theorem rdCfgr : Statement .rdCfgr := fun _ => rfl
theorem wrCfgr (v : Word) : Statement (.wrCfgr v) := fun _ => rfl
theorem rdTxdr : Statement .rdTxdr := fun _ => rfl
theorem wrTxdr (v : Word) : Statement (.wrTxdr v) := fun _ => rfl
theorem rdRxdr : Statement .rdRxdr := fun _ => rfl
theorem wrRxdr (v : Word) : Statement (.wrRxdr v) := fun _ => rfl
theorem rdIsr : Statement .rdIsr := fun _ => rfl
theorem wrIsr (v : Word) : Statement (.wrIsr v) := fun _ => rfl
theorem rdIer : Statement .rdIer := fun _ => rfl
theorem wrIer (v : Word) : Statement (.wrIer v) := fun _ => rfl

end Sys2Proof.Laws.EncodedRow
end

