-- ==== Sys2Proof/Laws/Sequencer.lean ====
section
/-!
SUPPORT. What the parts of a sequencer invocation do, said once: one error bit, a class of error bits, a snapshot of one
event, and what no dispatch ever changes.
-/
namespace Sys2Proof.Machine
open Sys2Proof.Safety

/-- The taken bits of a snapshot `w` of pending and enabled bits are the defined bits of `w`. -/
theorem hasEvent_evmask (w : Word) (e : Event) : hasEvent (w &&& Config.evmask) e = w.getLsbD e.bit := by
  have h : Config.evmask.getLsbD e.bit = true := by cases e <;> decide
  simp only [hasEvent, BitVec.getLsbD_and, h, Bool.and_true]

/-- A word with no bit in common with a mask has none of the mask's bits. -/
theorem getLsbD_of_and_eq_zero {w m : Word} {n : Nat} (h : w &&& m = 0#32) (hm : m.getLsbD n = true) :
    w.getLsbD n = false := by
  have := congrArg (fun x => BitVec.getLsbD x n) h
  simpa [hm] using this

theorem errorBit_untaken {taken : Word} {ends : SeqState} {acc : State × Bool} {e : Event}
    (h : hasEvent taken e = false) : errorBit taken ends acc e = acc := by simp [errorBit, h]

theorem errorBit_superseded {taken : Word} {ends : SeqState} {s : State} {e : Event} :
    errorBit taken ends (s, true) e = (s, true) := by simp [errorBit]

theorem errorBit_taken {taken : Word} {ends : SeqState} {s : State} {e : Event} (h : hasEvent taken e = true) :
    errorBit taken ends (s, false) e = (handle e s, s.st == ends) := by simp [errorBit, h]

/-- A class none of whose bits is taken does nothing. -/
theorem errorClass_untaken {taken : Word} {ends : SeqState} {es : List Event} {s : State}
    (h : ∀ e ∈ es, hasEvent taken e = false) : errorClass taken ends es s = (s, false) := by
  unfold errorClass
  induction es with
  | nil => rfl
  | cons e es ih =>
    rw [List.foldl_cons, errorBit_untaken (h e (List.mem_cons_self ..))]
    exact ih fun e' he' => h e' (List.mem_cons_of_mem _ he')

theorem violations_nil (st : SeqState) (w : Word) : violations st [] w = [] := rfl

theorem violations_cons (st : SeqState) (e : Event) (es : List Event) (w : Word) :
    violations st (e :: es) w =
      (if w.getLsbD e.bit then [.protocolViolation st e] else []) ++ violations st es w := by
  cases h : w.getLsbD e.bit <;> simp [violations, h]

/-- A class whose attempt is not in progress records a violation for each of its bits taken, and supersedes nothing. -/
theorem errorClass_violations {w : Word} {ends : SeqState} {es : List Event} {s : State} (hs : s.st ≠ ends)
    (hv : ∀ e ∈ es, transition s.phase e = false) :
    errorClass (w &&& Config.evmask) ends es s = ({ s with faults := s.faults ++ violations s.st es w }, false) := by
  have key : ∀ (es : List Event), (∀ e ∈ es, transition s.phase e = false) → ∀ fs : List RecordedFault,
      es.foldl (errorBit (w &&& Config.evmask) ends) ({ s with faults := fs }, false) =
        ({ s with faults := fs ++ violations s.st es w }, false) := by
    intro es
    induction es with
    | nil => intro _ fs; simp [violations_nil]
    | cons e es ih =>
      intro h fs
      rw [List.foldl_cons, violations_cons]
      cases hb : w.getLsbD e.bit with
      | true =>
        have ht : (({ s with faults := fs } : State).st == ends) = false := beq_eq_false_iff_ne.mpr hs
        have hh : handle e { s with faults := fs } = { s with faults := fs ++ [.protocolViolation s.st e] } :=
          handle_violation (h e (List.mem_cons_self ..))
        rw [errorBit_taken (by rw [hasEvent_evmask]; exact hb), ht, hh,
          ih (fun e' he' => h e' (List.mem_cons_of_mem _ he')) _]
        simp
      | false =>
        rw [errorBit_untaken (by rw [hasEvent_evmask]; exact hb), ih (fun e' he' => h e' (List.mem_cons_of_mem _ he')) _]
        simp
  exact key es hv s.faults

/-- While transmitting, the first transmit error taken ends the attempt and supersedes the others. -/
theorem errorClass_transmit {w : Word} {s : State} {tx : TxState} {k : TxErrorKind} (hp : s.phase = .transmitting tx)
    (hk : firstTxError w = some k) :
    errorClass (w &&& Config.evmask) .transmitting [.arblst, .txacke, .txerr] s = (txError k s, true) := by
  have hs : (s.st == SeqState.transmitting) = true := by simp [State.st, hp, Phase.st]
  have ha := hasEvent_evmask w .arblst
  have hn := hasEvent_evmask w .txacke
  have hl := hasEvent_evmask w .txerr
  simp only [Event.bit] at ha hn hl
  simp only [errorClass, List.foldl_cons, List.foldl_nil]
  unfold firstTxError at hk
  cases h7 : w.getLsbD 7 with
  | true =>
    rw [h7] at ha hk
    rw [errorBit_taken ha, hs, errorBit_superseded, errorBit_superseded]
    simp only [if_true, Option.some.injEq] at hk
    simp [handle, handleArblst, handleTxError, hp, hk]
  | false =>
    rw [h7] at ha hk
    rw [errorBit_untaken ha]
    cases h12 : w.getLsbD 12 with
    | true =>
      rw [h12] at hn hk
      rw [errorBit_taken hn, hs, errorBit_superseded]
      simp at hk
      simp [handle, handleTxacke, handleTxError, hp, hk]
    | false =>
      rw [h12] at hn hk
      rw [errorBit_untaken hn]
      cases h11 : w.getLsbD 11 with
      | true =>
        rw [h11] at hl hk
        rw [errorBit_taken hl, hs]
        simp at hk
        simp [handle, handleTxerr, handleTxError, hp, hk]
      | false => rw [h11] at hk; simp at hk

/-- While receiving, the first receive error taken ends the attempt and supersedes the others. -/
theorem errorClass_receive {w : Word} {s : State} {rx : RxState} {k : BusErrorKind} (hp : s.phase = .receiving rx)
    (hk : firstRxError w = some k) :
    errorClass (w &&& Config.evmask) .receiving [.bre, .sbpe, .lbpe] s = (rxError k s, true) := by
  have hs : (s.st == SeqState.receiving) = true := by simp [State.st, hp, Phase.st]
  have ha := hasEvent_evmask w .bre
  have hn := hasEvent_evmask w .sbpe
  have hl := hasEvent_evmask w .lbpe
  simp only [Event.bit] at ha hn hl
  simp only [errorClass, List.foldl_cons, List.foldl_nil]
  unfold firstRxError at hk
  cases h3 : w.getLsbD 3 with
  | true =>
    rw [h3] at ha hk
    rw [errorBit_taken ha, hs, errorBit_superseded, errorBit_superseded]
    simp only [if_true, Option.some.injEq] at hk
    simp [handle, handleBre, handleRxError, hp, hk]
  | false =>
    rw [h3] at ha hk
    rw [errorBit_untaken ha]
    cases h4 : w.getLsbD 4 with
    | true =>
      rw [h4] at hn hk
      rw [errorBit_taken hn, hs, errorBit_superseded]
      simp at hk
      simp [handle, handleSbpe, handleRxError, hp, hk]
    | false =>
      rw [h4] at hn hk
      rw [errorBit_untaken hn]
      cases h5 : w.getLsbD 5 with
      | true =>
        rw [h5] at hl hk
        rw [errorBit_taken hl, hs]
        simp at hk
        simp [handle, handleLbpe, handleRxError, hp, hk]
      | false => rw [h5] at hk; simp at hk

theorem progressBit_untaken {taken : Word} {b : Bool} {e : Event} {s : State} (h : hasEvent taken e = false) :
    progressBit taken b e s = s := by simp [progressBit, h]

theorem progressBit_superseded {taken : Word} {e : Event} {s : State} : progressBit taken true e s = s := by
  simp [progressBit]

theorem progressBit_taken {taken : Word} {e : Event} {s : State} (h : hasEvent taken e = true) :
    progressBit taken false e s = handle e s := by simp [progressBit, h]

/-- A progress bit not superseded is handled if it is taken. -/
theorem progressBit_evmask (w : Word) (e : Event) (s : State) :
    progressBit (w &&& Config.evmask) false e s = if w.getLsbD e.bit then handle e s else s := by
  simp [progressBit, hasEvent_evmask]

/-- A snapshot of one event handles that event. -/
theorem dispatchEvents_one (e : Event) (s : State) : dispatchEvents (1#32 <<< e.bit) s = handle e s := by
  have key : ∀ e f : Event, hasEvent (1#32 <<< e.bit) f = decide (e = f) := by
    intro e f; cases e <;> cases f <;> decide
  simp only [dispatchEvents, errorClass, List.foldl, errorBit, progressBit, key]
  cases e <;> simp

theorem errorClass_sameBus (taken : Word) (ends : SeqState) (es : List Event) (s : State) :
    SameBus s (errorClass taken ends es s).1 := by
  have key : ∀ (es : List Event) (acc : State × Bool), SameBus acc.1 (es.foldl (errorBit taken ends) acc).1 := by
    intro es
    induction es with
    | nil => intro acc; exact .rfl' _
    | cons e es ih =>
      intro acc
      refine SameBus.trans' ?_ (ih _)
      unfold errorBit; split
      · exact handle_sameBus e _
      · exact .rfl' _
  exact key es (s, false)

theorem progressBit_sameBus (taken : Word) (b : Bool) (e : Event) {s t : State} (h : SameBus s t) :
    SameBus s (progressBit taken b e t) := by
  unfold progressBit; split
  · exact h.trans' (handle_sameBus e t)
  · exact h

/-- Whatever events a snapshot holds, their handling changes none of the peripheral's registers but `TXDR`, and nothing of
the other agents. -/
theorem dispatchEvents_sameBus (taken : Word) (s : State) : SameBus s (dispatchEvents taken s) := by
  unfold dispatchEvents
  dsimp only
  repeat apply progressBit_sameBus
  exact (errorClass_sameBus _ _ _ s).trans' (errorClass_sameBus _ _ _ _)

/-- Induction along the events of a snapshot: a property that every `handle` keeps, an invocation keeps. -/
theorem dispatchEvents_keeps {P : State → Prop} (hP : ∀ e s, P s → P (handle e s)) (taken : Word) {s : State} (h : P s) :
    P (dispatchEvents taken s) := by
  have hbit : ∀ taken b e s, P s → P (progressBit taken b e s) := by
    intro taken b e s hs; unfold progressBit; split
    · exact hP e s hs
    · exact hs
  have hclass : ∀ taken ends es (acc : State × Bool), P acc.1 → P (List.foldl (errorBit taken ends) acc es).1 := by
    intro taken ends es
    induction es with
    | nil => intro acc h; exact h
    | cons e es ih =>
      intro acc h
      apply ih
      unfold errorBit; split
      · exact hP e _ h
      · exact h
  unfold dispatchEvents
  dsimp only
  repeat apply hbit
  exact hclass _ _ _ (_, false) (hclass _ _ _ (s, false) h)

end Sys2Proof.Machine
end

