-- ==== Sys2Proof/Laws/Served.lean ====
section
/-!
SUPPORT. One event raised and served: what a `LINE` turn and the `SEQ` turn after it do, said once.
-/
namespace Sys2Proof.Machine
open Sys2Proof.Safety

/-- Every `E` row has the one effect of `LINE.raise`; `60_exceptions.md` R201. -/
theorem exec_ofEvent (e : Event) (bits : BitVec 16) (rxd : Byte) (s : State) :
    exec (Instr.ofEvent e bits rxd) s = lineRaise bits rxd s := by
  cases e <;> rfl

/-- A word of one event is legal; `30_encoding.md` R92. -/
theorem legalEvent_one {e : Event} {rxd : Byte} (h : e ≠ .rxbr → rxd = 0#8) :
    legalEvent (1#16 <<< e.bit) rxd = true := by
  by_cases he : e = .rxbr
  · subst he
    simp only [legalEvent, show (1#16 <<< Event.rxbr.bit).getLsbD Event.rxbr.bit = true by decide, Bool.or_true,
      Bool.and_true]
    decide
  · rw [h he]; cases e <;> decide

/-- A word of one event decodes to that event's row; `30_encoding.md` R87. -/
theorem decodeEvent_one {e : Event} {rxd : Byte} (h : e ≠ .rxbr → rxd = 0#8) :
    decodeEvent (eventWord e rxd) = .ok (Instr.ofEvent e (1#16 <<< e.bit) rxd) := by
  have hf : firstEvent (1#16 <<< e.bit) = some e := by cases e <;> decide
  unfold decodeEvent eventWord
  rw [(eventWord_fields rxd _).1, (eventWord_fields rxd _).2]
  simp [legalEvent_one h, hf]

/-- An invocation dispatches the events it takes, after exactly their bits are cleared; `60_exceptions.md` R204. -/
theorem seqInvoke_eq (s : State) :
    seqInvoke s = dispatchEvents (s.isr &&& s.ier &&& Config.evmask) (cleared s) := by
  simp only [seqInvoke, takeInterrupt, returnFromInterrupt, eventsTaken, writeIsr, cleared, BitVec.and_assoc,
    BitVec.and_self]

/-- An invocation that takes one event clears its bit and handles it; `60_exceptions.md` R204. -/
theorem seqInvoke_takesOnly {e : Event} {s : State} (h : takesOnly e s) : seqInvoke s = handle e (cleared s) := by
  have he : eventsTaken s = 1#32 <<< e.bit := h
  have hm : (1#32 <<< e.bit) &&& Config.evmask = 1#32 <<< e.bit := by cases e <;> decide
  simp only [seqInvoke, takeInterrupt, returnFromInterrupt, he, dispatchEvents_one, writeIsr, hm, cleared]
  rw [takesOnly] at h
  rw [h]

/-- The event taken makes the interrupt pending; `60_exceptions.md` R203. -/
theorem irq_takesOnly {e : Event} {s : State} (h : takesOnly e s) : irq s = true := by
  simp only [irq, bne_iff_ne, ne_eq]
  intro hc
  rw [takesOnly, hc] at h
  cases e <;> revert h <;> decide

/-- A `SEQ` turn that takes one event; `60_exceptions.md` R204. -/
theorem step_takesOnly {e : Event} {s : State} {turns : List Agent} (ht : s.turns = .seq :: turns)
    (h : takesOnly e s) : step s = .next (handle e { cleared s with turns := turns }) := by
  have h' : takesOnly e { s with turns := turns } := h
  simp only [step, nextTurn, ht, agentTurn, seqTurn, irq_takesOnly h', if_true, seqInvoke_takesOnly h']
  rfl

/-- A `LINE` turn of an armed block takes its word and raises it; `60_exceptions.md` R201. -/
theorem step_raise {e : Event} {rxd : Byte} {s : State} {turns : List Agent} {words : List (BitVec 24)}
    (ht : s.turns = .line :: turns) (hw : s.lineIn = eventWord e rxd :: words) (hx : e ≠ .rxbr → rxd = 0#8)
    (ha : armed s = true) :
    step s = .next (raised (1#16 <<< e.bit) rxd { s with turns := turns, lineIn := words }) := by
  have hl : lineEnabled { s with turns := turns, lineIn := eventWord e rxd :: words } = true := ha
  simp only [step, nextTurn, ht, agentTurn, lineTurn, hw, decodeEvent_one hx, exec_ofEvent]
  rw [if_neg (by rw [hl]; simp), lineRaise_eq_next]
  exact ⟨ha, legalEvent_one hx, rfl⟩

/-- One event raised on an armed block with nothing pending, and served: `ISR` is as before, `RXBR` has brought its byte, a
transmit bit has made the peripheral ready, and the event is handled; `60_exceptions.md` R201, R204. -/
theorem runs_served {e : Event} {rxd : Byte} {s : State} {turns : List Agent} {words : List (BitVec 24)}
    (ht : s.turns = .line :: .seq :: turns) (hw : s.lineIn = eventWord e rxd :: words) (hx : e ≠ .rxbr → rxd = 0#8)
    (ha : armed s = true) (hier : s.ier = 0x3BBB#32) (hisr : s.isr = 0#32) (n : Nat) :
    runs (n + 2) s = runs n (handle e { s with
      turns := turns, lineIn := words
      rxdr := if e = .rxbr then rxd.setWidth 32 else s.rxdr
      txrdy := s.txrdy || decide (e ∈ [Event.txbr, .txend, .arblst, .txacke, .txerr]) }) := by
  rw [runs, step_raise ht hw hx ha]
  dsimp only
  rw [runs, step_takesOnly (e := e) (turns := turns) rfl (by simp only [takesOnly, raised, hier, hisr]; cases e <;> decide)]
  dsimp only
  congr 2
  simp only [cleared, raised, hier, hisr]
  have hc : (0#32 ||| (1#16 <<< e.bit).setWidth 32) &&&
      ~~~((0#32 ||| (1#16 <<< e.bit).setWidth 32) &&& 0x3BBB#32 &&& 0x3BBB#32) = 0#32 := by cases e <;> decide
  have hb : (1#16 <<< e.bit).getLsbD Event.rxbr.bit = decide (e = .rxbr) := by cases e <;> decide
  have hr : ((BitVec.setWidth 32 (1#16 <<< e.bit) &&& Config.layout.readyMask) != 0#32) =
      decide (e ∈ [Event.txbr, .txend, .arblst, .txacke, .txerr]) := by cases e <;> decide
  rw [hc, hb, hr]
  simp only [decide_eq_true_eq]
  congr 1
  cases s.txrdy <;> by_cases h : e ∈ [Event.txbr, .txend, .arblst, .txacke, .txerr] <;> simp [h]

/-- A byte through a 32-bit register; `30_encoding.md` R91. -/
theorem lowByte_zextByte (b : Byte) : lowByte (zextByte b) = b := by
  unfold lowByte zextByte; ext i hi; simp [hi, show i < 32 by omega]

/-- `deliver(f)` with its labels; `42_receive_events.md` R146. -/
theorem deliver_eq (f : Frame) (s : State) :
    deliver f s = { s with rxq := channelAfter s.rxq f, trace := s.trace ++ deliveryLabels s.rxq f } := by
  unfold deliver channelAfter deliveryLabels
  by_cases h : s.rxq.length = Config.rxqCap
  · rcases hq : s.rxq with _ | ⟨g, q⟩
    · rw [hq] at h; simp [Config.rxqCap] at h
    · rw [deliverAt_full hq h, ← hq, if_pos h, if_pos h, hq]; simp [emit]
  · rw [deliverAt_room h, if_neg h, if_neg h]; simp [emit]

end Sys2Proof.Machine
end

