-- ==== Sys2Proof/Laws/Turns.lean ====
section
/-!
SUPPORT. What a `HOST` turn does with the commands issued, said once: those that wait are passed over and kept, the first
that does not wait is run.
-/
namespace Sys2Proof.Machine
open Sys2Proof.Safety

theorem decodeHost_txwait (bs : List Byte) : decodeHost (0x04#8 :: bs) = .ok (.txwait, bs) := rfl

theorem decodeHost_receive (bs : List Byte) : decodeHost (0x05#8 :: bs) = .ok (.receive, bs) := rfl

theorem waits_txwait {s : State} (hs : s.st = .transmitting) (hd : s.txDone = none) : waits .txwait s = true := by
  simp [waits, hs, hd]

theorem waits_receive {s : State} (hq : s.rxq = []) : waits .receive s = true := by simp [waits, hq]

/-- The opcode of a command, and that the one-byte commands leave the rest; `30_encoding.md` R84. -/
theorem decodeHost_oneByte {b : Byte} {bs rest : List Byte} {i : Instr} (h : decodeHost (b :: bs) = .ok (i, rest)) :
    (i = .txwait → b = 0x04#8 ∧ rest = bs) ∧ (i = .receive → b = 0x05#8 ∧ rest = bs) := by
  simp only [decodeHost, decodeArm.eq_def, decodeTransmit.eq_def] at h
  repeat' split at h
  all_goals cases h
  all_goals simp_all

/-- A command that waits is one byte, `TXWAIT` or `RECEIVE`, whose guard is not met; `60_exceptions.md` R216. -/
theorem decodeHost_waits {b : Byte} {bs rest : List Byte} {i : Instr} {s : State}
    (h : decodeHost (b :: bs) = .ok (i, rest)) (hw : waits i s = true) : allWait [b] s ∧ rest = bs := by
  have hb := decodeHost_oneByte h
  cases i <;> simp [waits] at hw
  · exact ⟨by simp [allWait, (hb.1 rfl).1, hw], (hb.1 rfl).2⟩
  · exact ⟨by simp [allWait, (hb.2 rfl).1, hw], (hb.2 rfl).2⟩

theorem allWait_cons {b : Byte} {bs : List Byte} {s : State} : allWait (b :: bs) s ↔ allWait [b] s ∧ allWait bs s := by
  simp [allWait]

/-- A byte that waits is passed over and kept. -/
theorem readyCommand_wait {b : Byte} {bs : List Byte} {s : State} (h : allWait [b] s) :
    readyCommand s (b :: bs) = keepByte b (readyCommand s bs) := by
  rcases h b (List.mem_singleton.mpr rfl) with ⟨rfl, hs, hd⟩ | ⟨rfl, hq⟩
  · rw [readyCommand, decodeHost_txwait]; simp only [waits_txwait hs hd, if_true]
  · rw [readyCommand, decodeHost_receive]; simp only [waits_receive hq, if_true]

/-- All of them wait: there is none to run. -/
theorem readyCommand_none {bs : List Byte} {s : State} (h : allWait bs s) : readyCommand s bs = .ok none := by
  induction bs with
  | nil => rfl
  | cons b bs ih => obtain ⟨h1, h2⟩ := allWait_cons.mp h; rw [readyCommand_wait h1, ih h2]; rfl

/-- The first command that does not wait is the one to run, and those before it stay in line. -/
theorem readyCommand_some {pre bs rest : List Byte} {i : Instr} {s : State} (hp : allWait pre s)
    (h : decodeHost bs = .ok (i, rest)) (hw : waits i s = false) :
    readyCommand s (pre ++ bs) = .ok (some (i, pre ++ rest)) := by
  induction pre with
  | nil =>
    cases bs with
    | nil => cases h
    | cons b bs => rw [List.nil_append, readyCommand, h]; simp [hw]
  | cons p pre ih =>
    obtain ⟨h1, h2⟩ := allWait_cons.mp hp
    rw [List.cons_append, readyCommand_wait h1, ih h2]; rfl

/-- Behind commands that wait, what does not decode is refused. -/
theorem readyCommand_error {pre bs : List Byte} {r : Reject} {s : State} (hp : allWait pre s) (hb : bs ≠ [])
    (h : decodeHost bs = .error r) : readyCommand s (pre ++ bs) = .error r := by
  induction pre with
  | nil =>
    cases bs with
    | nil => exact absurd rfl hb
    | cons b bs => rw [List.nil_append, readyCommand, h]
  | cons p pre ih =>
    obtain ⟨h1, h2⟩ := allWait_cons.mp hp
    rw [List.cons_append, readyCommand_wait h1, ih h2]; rfl

/-- Everything `readyCommand` can answer: all commands wait, or behind those that do (`pre`) one is ready, or one does not
decode. -/
theorem readyCommand_cases (s : State) (bs : List Byte) :
    (allWait bs s ∧ readyCommand s bs = .ok none) ∨
    (∃ pre own i rest, bs = pre ++ own ∧ allWait pre s ∧ decodeHost own = .ok (i, rest) ∧ waits i s = false ∧
      readyCommand s bs = .ok (some (i, pre ++ rest))) ∨
    (∃ pre own r, bs = pre ++ own ∧ own ≠ [] ∧ allWait pre s ∧ decodeHost own = .error r ∧
      readyCommand s bs = .error r) := by
  induction bs with
  | nil => exact .inl ⟨by simp [allWait], rfl⟩
  | cons b bs ih =>
    have hnil : allWait [] s := by simp [allWait]
    cases hd : decodeHost (b :: bs) with
    | error r => exact .inr (.inr ⟨[], b :: bs, r, rfl, by simp, hnil, hd, readyCommand_error hnil (by simp) hd⟩)
    | ok p =>
      obtain ⟨i, rest⟩ := p
      cases hw : waits i s with
      | false => exact .inr (.inl ⟨[], b :: bs, i, rest, rfl, hnil, hd, hw, readyCommand_some hnil hd hw⟩)
      | true =>
        obtain ⟨h1, rfl⟩ := decodeHost_waits hd hw
        rcases ih with ⟨h2, -⟩ | ⟨pre, own, j, left, rfl, h2, h3, h4, -⟩ | ⟨pre, own, r, rfl, h2, h3, h4, -⟩
        · exact .inl ⟨allWait_cons.mpr ⟨h1, h2⟩, readyCommand_none (allWait_cons.mpr ⟨h1, h2⟩)⟩
        · have h5 : allWait (b :: pre) s := allWait_cons.mpr ⟨h1, h2⟩
          exact .inr (.inl ⟨b :: pre, own, j, left, rfl, h5, h3, h4, readyCommand_some h5 h3 h4⟩)
        · have h5 : allWait (b :: pre) s := allWait_cons.mpr ⟨h1, h3⟩
          exact .inr (.inr ⟨b :: pre, own, r, rfl, h2, h5, h4, readyCommand_error h5 h2 h4⟩)

/-- The commands a `HOST` turn can run are the six of format `H`; `30_encoding.md` R84. -/
theorem decodeHost_isHost {bs rest : List Byte} {i : Instr} (h : decodeHost bs = .ok (i, rest)) :
    (∃ cfg, i = .arm cfg) ∨ i = .disarm ∨ (∃ f, i = .transmit f) ∨ i = .txwait ∨ i = .receive ∨ i = .lastError := by
  unfold decodeHost decodeArm decodeTransmit at h
  repeat' split at h
  all_goals cases h
  all_goals simp

/-! ## The turn -/

/-- While `irq = 1` a `HOST` turn passes; `20_memory.md` R68. -/
theorem hostTurn_preempted {s : State} (h : irq s = true) : hostTurn s = .next s := by
  simp [hostTurn, hostEnabled, h]

/-- A `HOST` turn with every command waiting passes; `60_exceptions.md` R216. -/
theorem hostTurn_allWait {s : State} (h : allWait s.hostIn s) : hostTurn s = .next s := by
  unfold hostTurn; split
  · rfl
  · rw [readyCommand_none h]

/-- A `HOST` turn runs the first command that does not wait. -/
theorem hostTurn_ready {s : State} {pre own rest : List Byte} {i : Instr} (hi : irq s = false)
    (hb : s.hostIn = pre ++ own) (hp : allWait pre s) (hd : decodeHost own = .ok (i, rest)) (hw : waits i s = false) :
    hostTurn s = exec i { s with hostIn := pre ++ rest } := by
  simp only [hostTurn, hostEnabled, hi, Bool.and_false, Bool.not_false, Bool.not_true, Bool.false_eq_true, if_false, hb,
    readyCommand_some hp hd hw]

/-- A `HOST` turn refuses the first of what does not wait if it does not decode. -/
theorem hostTurn_refused {s : State} {pre own : List Byte} {r : Reject} (hi : irq s = false)
    (hb : s.hostIn = pre ++ own) (hn : own ≠ []) (hp : allWait pre s) (hd : decodeHost own = .error r) :
    hostTurn s = .refused (refusalOf r) := by
  simp only [hostTurn, hostEnabled, hi, Bool.and_false, Bool.not_false, Bool.not_true, Bool.false_eq_true, if_false, hb,
    readyCommand_error hp hn hd]

/-- A next state of a `HOST` turn: the turn passed, or one of the six commands ran and the commands before it stay. -/
theorem hostTurn_next {s t : State} (h : hostTurn s = .next t) :
    t = s ∨ irq s = false ∧ ∃ pre own i rest, s.hostIn = pre ++ own ∧ allWait pre s ∧ decodeHost own = .ok (i, rest) ∧
      waits i s = false ∧ exec i { s with hostIn := pre ++ rest } = .next t := by
  cases hi : irq s with
  | true => rw [hostTurn_preempted hi] at h; cases h; exact .inl rfl
  | false =>
    rcases readyCommand_cases s s.hostIn with ⟨h1, -⟩ | ⟨pre, own, i, rest, h1, h2, h3, h4, -⟩ | ⟨pre, own, r, h1, h2, h3, h4, -⟩
    · rw [hostTurn_allWait h1] at h; cases h; exact .inl rfl
    · rw [hostTurn_ready hi h1 h2 h3 h4] at h
      exact .inr ⟨rfl, pre, own, i, rest, h1, h2, h3, h4, h⟩
    · rw [hostTurn_refused hi h1 h2 h3 h4] at h; cases h

end Sys2Proof.Machine
end

