-- ==== Sys2Proof/Tests/Slice0.lean ====
section
/-!
SUPPORT. The model's own tests: each term the well-formedness check refuses, words written out from `spec/30_encoding.md`,
one-step vectors of `spec/95_test_vectors.md` (named by their ids), and a witness for each statement that has hypotheses.
-/
namespace Sys2Proof.Tests
open Sys2Proof Sys2Proof.Machine Sys2Proof.Safety

/-! ## States -/

/-- "Armed(3)" of `95_test_vectors.md`. -/
def armed3 : State :=
  { State.reset with cr := 0x00000001#32, cfgr := 0x00080000#32, ier := 0x00003BBB#32, txrdy := true }

/-- Armed(3) while `Receiving` the bytes `buf`. -/
def receiving (buf : List Byte) (matched : Bool) : State := { armed3 with phase := .receiving { buf := buf, matched := matched } }

/-- Armed(3) while `Transmitting`, `tx = (f.length, idx, sub)`, the peripheral not ready. -/
def transmitting (f : Frame) (idx : Nat) (sub : TxSub) : State :=
  { armed3 with txdr := 0x30#32, txrdy := false, phase := .transmitting { frame := f, idx := idx, sub := sub } }

/-- `s` with status bits pending. -/
def pending (bits : Word) (s : State) : State := { s with isr := bits }

/-- `s` with a transmit outcome uncollected. -/
def collected (o : TxOutcome) (s : State) : State := { s with txDone := some o }

/-- What a next state holds. -/
def after {α : Type} (o : Host.Outcome State Fault Refusal) (get : State → α) : Option α :=
  match o with
  | .next t => some (get t)
  | _ => none

/-- The name under which an outcome is refused. -/
def refusal (o : Host.Outcome State Fault Refusal) : Option Refusal :=
  match o with
  | .refused r => some r
  | _ => none

/-- The name under which an outcome is a fault. -/
def fault (o : Host.Outcome State Fault Refusal) : Option Fault :=
  match o with
  | .fault r => some r
  | _ => none

/-- A Configuration with own address `a` and every other field at its default. -/
def own (a : Option Byte) : Configuration := { own := a, extra := 0#16, tol := .standard, sft := 0#3, listen := false }

/-- Sixteen bytes addressed to 3, of V-RX4. -/
def sixteen : List Byte :=
  [0x03#8, 0xA1#8, 0xA2#8, 0xA3#8, 0xA4#8, 0xA5#8, 0xA6#8, 0xA7#8, 0xA8#8, 0xA9#8, 0xAA#8, 0xAB#8, 0xAC#8, 0xAD#8, 0xAE#8, 0xAF#8]

/-! ## WellFormed: a term for each check, which the check refuses -/

/-- `FF` encodes `None`, so `Some(0xFF)` has no encoding; R82. -/
theorem test_wf_own_ff : (Instr.arm (own (some 0xFF#8))).wellFormed = false := by decide
theorem test_wf_own_fe : (Instr.arm (own (some 0xFE#8))).wellFormed = true := by decide
/-- `len` is one byte; R83. -/
theorem test_wf_frame_256 : (Instr.transmit (List.replicate 256 0#8)).wellFormed = false := by
  show decide ((List.replicate 256 0#8).length ≤ 255) = false; rw [List.length_replicate]; decide
theorem test_wf_frame_255 : (Instr.transmit (List.replicate 255 0#8)).wellFormed = true := by
  show decide ((List.replicate 255 0#8).length ≤ 255) = true; rw [List.length_replicate]; decide
/-- No bit; R92. -/
theorem test_wf_no_bit : (Instr.rxend 0#16 0#8).wellFormed = false := by decide
/-- A reserved bit; R92. -/
theorem test_wf_reserved_bit : (Instr.rxend 0x0006#16 0#8).wellFormed = false := by decide
/-- A received byte without `RXBR`; R92. -/
theorem test_wf_byte_without_rxbr : (Instr.rxend 0x0002#16 0x32#8).wellFormed = false := by decide
/-- The word is the row of another event, or does not hold the row's event (log entry 9). -/
theorem test_wf_other_event : (Instr.rxend 0x0082#16 0#8).wellFormed = false := by decide
theorem test_wf_event_missing : (Instr.rxend 0x0200#16 0#8).wellFormed = false := by decide

/-! ## Decoding: words written out from R82 to R89 -/

theorem test_decode_arm : decodeHost [0x01#8, 0x0F#8, 0x80#8, 0x11#8, 0x1F#8] =
    .ok (.arm { own := some 0x0F#8, extra := 0x8011#16, tol := .extended, sft := 7#3, listen := true }, []) := by rfl
theorem test_decode_arm_unassigned : decodeHost [0x01#8, 0xFF#8, 0x00#8, 0x00#8, 0x0A#8] =
    .ok (.arm { own := none, extra := 0#16, tol := .extended, sft := 2#3, listen := false }, []) := by rfl
theorem test_decode_disarm : decodeHost [0x02#8, 0x05#8] = .ok (.disarm, [0x05#8]) := by rfl
theorem test_decode_transmit : decodeHost [0x03#8, 0x03#8, 0x30#8, 0x44#8, 0x41#8, 0x04#8] =
    .ok (.transmit [0x30#8, 0x44#8, 0x41#8], [0x04#8]) := by rfl
theorem test_decode_transmit_empty : decodeHost [0x03#8, 0x00#8] = .ok (.transmit [], []) := by rfl
theorem test_decode_txwait : decodeHost [0x04#8] = .ok (.txwait, []) := by rfl
theorem test_decode_receive : decodeHost [0x05#8] = .ok (.receive, []) := by rfl
theorem test_decode_last_error : decodeHost [0x06#8] = .ok (.lastError, []) := by rfl
theorem test_decode_rxbr : decodeEvent 0x320001#24 = .ok (.rxbr 0x0001#16 0x32#8) := by rfl
theorem test_decode_rxend : decodeEvent 0x000002#24 = .ok (.rxend 0x0002#16 0#8) := by rfl
theorem test_decode_bre : decodeEvent 0x000008#24 = .ok (.bre 0x0008#16 0#8) := by rfl
theorem test_decode_sbpe : decodeEvent 0x000010#24 = .ok (.sbpe 0x0010#16 0#8) := by rfl
theorem test_decode_lbpe : decodeEvent 0x000020#24 = .ok (.lbpe 0x0020#16 0#8) := by rfl
theorem test_decode_arblst : decodeEvent 0x000080#24 = .ok (.arblst 0x0080#16 0#8) := by rfl
theorem test_decode_txbr : decodeEvent 0x000100#24 = .ok (.txbr 0x0100#16 0#8) := by rfl
theorem test_decode_txend : decodeEvent 0x000200#24 = .ok (.txend 0x0200#16 0#8) := by rfl
theorem test_decode_txerr : decodeEvent 0x000800#24 = .ok (.txerr 0x0800#16 0#8) := by rfl
theorem test_decode_txacke : decodeEvent 0x001000#24 = .ok (.txacke 0x1000#16 0#8) := by rfl
theorem test_decode_rxstart : decodeEvent 0x002000#24 = .ok (.rxstart 0x2000#16 0#8) := by rfl
/-- V-E2: `RXBR` and `RXEND` in one word. -/
theorem test_decode_v_e2 : decodeEvent 0x0A0003#24 = .ok (.rxbr 0x0003#16 0x0A#8) := by rfl
/-- V-E4: all eleven events. -/
theorem test_decode_v_e4 : decodeEvent 0x003BBB#24 = .ok (.arblst 0x3BBB#16 0#8) := by rfl
theorem test_decode_rd_cr : decodeAccess [0x00#8] = .ok (.rdCr, []) := by rfl
theorem test_decode_wr_cr : decodeAccess [0x80#8, 0x00#8, 0x00#8, 0x00#8, 0x01#8] = .ok (.wrCr 0x00000001#32, []) := by rfl
theorem test_decode_rd_cfgr : decodeAccess [0x04#8] = .ok (.rdCfgr, []) := by rfl
theorem test_decode_wr_cfgr : decodeAccess [0x84#8, 0x80#8, 0x11#8, 0x00#8, 0x0F#8] = .ok (.wrCfgr 0x8011000F#32, []) := by rfl
theorem test_decode_rd_txdr : decodeAccess [0x08#8] = .ok (.rdTxdr, []) := by rfl
theorem test_decode_wr_txdr : decodeAccess [0x88#8, 0x00#8, 0x00#8, 0x01#8, 0x30#8] = .ok (.wrTxdr 0x00000130#32, []) := by rfl
theorem test_decode_rd_rxdr : decodeAccess [0x0C#8] = .ok (.rdRxdr, []) := by rfl
theorem test_decode_wr_rxdr : decodeAccess [0x8C#8, 0x00#8, 0x00#8, 0x00#8, 0xFF#8] = .ok (.wrRxdr 0x000000FF#32, []) := by rfl
theorem test_decode_rd_isr : decodeAccess [0x10#8] = .ok (.rdIsr, []) := by rfl
theorem test_decode_wr_isr : decodeAccess [0x90#8, 0x00#8, 0x00#8, 0x20#8, 0x00#8] = .ok (.wrIsr 0x00002000#32, []) := by rfl
theorem test_decode_rd_ier : decodeAccess [0x14#8] = .ok (.rdIer, []) := by rfl
theorem test_decode_wr_ier : decodeAccess [0x94#8, 0x00#8, 0x00#8, 0x3B#8, 0xBB#8] = .ok (.wrIer 0x00003BBB#32, []) := by rfl

/-! ## Refused encodings -/

/-- V-H9. -/
theorem test_v_h9 : decodeHost [0x00#8] = .error .illegalCommand ∧ decodeHost [0x07#8] = .error .illegalCommand ∧
    decodeHost [0xFF#8] = .error .illegalCommand ∧ decodeHost [] = .error .illegalCommand := ⟨rfl, rfl, rfl, rfl⟩
/-- V-A8, and an operand byte missing. -/
theorem test_v_a8 : decodeHost [0x01#8, 0x03#8, 0x00#8, 0x00#8, 0x20#8] = .error .illegalCommand ∧
    decodeHost [0x01#8, 0x03#8, 0x00#8, 0x00#8] = .error .illegalCommand ∧
    decodeHost [0x03#8, 0x02#8, 0x30#8] = .error .illegalCommand ∧ decodeHost [0x03#8] = .error .illegalCommand :=
  ⟨rfl, rfl, rfl, rfl⟩
/-- V-E5, V-E6, V-E7. -/
theorem test_v_e5 : decodeEvent 0x000004#24 = .error .illegalEvent ∧ decodeEvent 0x000040#24 = .error .illegalEvent ∧
    decodeEvent 0x000400#24 = .error .illegalEvent ∧ decodeEvent 0x004000#24 = .error .illegalEvent ∧
    decodeEvent 0x008000#24 = .error .illegalEvent := ⟨rfl, rfl, rfl, rfl, rfl⟩
theorem test_v_e6 : decodeEvent 0x000000#24 = .error .illegalEvent ∧ decodeEvent 0x320002#24 = .error .illegalEvent := ⟨rfl, rfl⟩
/-- V-REG18, and data missing. -/
theorem test_v_reg18 : decodeAccess [0x18#8] = .error .badRegisterAccess ∧ decodeAccess [0x20#8] = .error .badRegisterAccess ∧
    decodeAccess [0x02#8] = .error .badRegisterAccess ∧ decodeAccess [0x80#8, 0#8, 0#8, 1#8] = .error .badRegisterAccess :=
  ⟨rfl, rfl, rfl, rfl⟩
theorem test_mem_access : (memRead 0x18 4 armed3).isOk = false ∧ (memRead 0x10 2 armed3).isOk = false ∧
    (memRead 0x14 4 armed3).toOption = some 0x00003BBB#32 := by decide

/-! ## Numbers of the layout, against the tables of `10_state.md` -/

/-- `EVMASK` is the set of the eleven bits, R36; the ready bits are `TXPROG` and `TXERRS`, R42. -/
theorem test_evmask : (Event.all.foldl (fun w e => w ||| 1#32 <<< e.bit) 0#32) = Config.evmask ∧
    Config.layout.readyMask = 0x1880#32 ||| 0x0300#32 := by decide
theorem test_offsets : Reg.all.map (fun r => Reg.ofOffset r.offset) = Reg.all.map some := by decide
theorem test_codes : (SeqState.idle.code, SeqState.receiving.code, SeqState.transmitting.code) = (0#2, 1#2, 2#2) ∧
    (TxSub.waitSFT.code, TxSub.byteInFlight.code, TxSub.complete.code, TxSub.errored.code) = (0#2, 1#2, 2#2, 3#2) := by decide

/-! ## Register accesses, V-REG -/

theorem test_v_reg1 : after (exec (.wrCr 0x00000001#32) State.reset) (fun t => (t.cr, t.txrdy)) = some (0x00000001#32, true) := by decide
theorem test_v_reg3 : after (exec (.wrCr 0xFFFFFFFE#32) State.reset) (fun t => (t.cr, t.txrdy)) = some (0#32, false) := by decide
theorem test_rd_cr : after (exec .rdCr armed3) (fun t => t.results) = some [.reg 0x00000001#32] := by decide
theorem test_v_reg4 : after (exec (.wrCfgr 0xFFFFFFFF#32) State.reset) (fun t => t.cfgr) = some 0xFFFF000F#32 := by decide
theorem test_v_reg5 : after (exec (.wrCfgr 0x00100000#32) armed3) (fun t => (t.cfgr, t.faults)) =
    some (0x00080000#32, [.configWriteWhileArmed]) := by decide
theorem test_rd_cfgr : after (exec .rdCfgr armed3) (fun t => t.results) = some [.reg 0x00080000#32] := by decide
theorem test_v_reg6 : after (exec (.wrTxdr 0x00000130#32) armed3) (fun t => (t.txdr, t.txrdy, t.trace)) =
    some (0x30#32, false, [.txByte 0x30#8]) := by decide
theorem test_v_reg8 : after (exec (.wrTxdr 0x00000030#32) State.reset) (fun t => (t.txdr, t.faults, t.trace)) =
    some (0#32, [.txDataNotReady], []) := by decide
theorem test_v_reg9 : after (exec .rdTxdr { armed3 with txdr := 0x30#32 }) (fun t => t.results) = some [.reg 0#32] := by decide
theorem test_v_reg10 : after (exec (.wrIsr 0x80#32) (pending 0x2080#32 armed3)) (fun t => t.isr) = some 0x2000#32 := by decide
theorem test_v_reg12 : after (exec (.wrIsr 0xFFFFC444#32) (pending 0x0001#32 armed3)) (fun t => t.isr) = some 0x0001#32 := by decide
theorem test_v_reg13 : after (exec .rdIsr (pending 0x3#32 armed3)) (fun t => (t.results, t.isr, irq t)) =
    some ([.reg 0x3#32], 0x3#32, true) := by decide
theorem test_v_reg14 : after (exec (.wrIer 0xFFFFFFFF#32) State.reset) (fun t => t.ier) = some 0x3BBB#32 := by decide
theorem test_v_reg15 : after (exec (.wrIer 0x1#32) (pending 0x1#32 State.reset)) irq = some true := by decide
theorem test_rd_ier : after (exec .rdIer armed3) (fun t => t.results) = some [.reg 0x3BBB#32] := by decide
theorem test_v_reg16 : after (exec .rdRxdr { armed3 with rxdr := 0x32#32 }) (fun t => (t.results, t.isr)) =
    some ([.reg 0x32#32], 0#32) := by decide
theorem test_v_reg17 : after (exec (.wrRxdr 0xFF#32) { armed3 with rxdr := 0x32#32 }) (fun t => t.rxdr) = some 0x32#32 := by decide

/-! ## ARM and DISARM, V-A -/

theorem test_v_a1 : after (exec (.arm (own (some 3#8))) State.reset) (fun t => t) =
    some { armed3 with results := [.host [0x00#8]] } := by decide
/-- V-A2, and V-A7: armed is checked before the own address. -/
theorem test_v_a2 : after (exec (.arm (own (some 16#8))) State.reset) (fun t => t) =
      some { State.reset with results := [.host [0x01#8]] } ∧
    refusal (exec (.arm (own (some 16#8))) armed3) = some .alreadyArmed := by decide
/-- V-A3, V-A4, V-A5: the Configurations' `CFGR`; only broadcast is accepted with V-A4's. -/
theorem test_v_a3 :
    encodeCfg { own := some 0x0F#8, extra := 0x8011#16, tol := .extended, sft := 7#3, listen := true } = 0x8011000F#32 ∧
    encodeCfg { own := none, extra := 0#16, tol := .extended, sft := 2#3, listen := false } = 0x0000000A#32 ∧
    encodeCfg { own := some 5#8, extra := 0#16, tol := .standard, sft := 0#3, listen := true } = 0x80200000#32 ∧
    (List.range 16).map (fun d => accept 0x0000000A#32 (BitVec.ofNat 4 d)) = List.replicate 15 false ++ [true] := by decide
theorem test_v_a10 : after (exec .disarm (receiving [0x3F#8] true)) (fun t => t) =
    some { State.reset with cfgr := 0x00080000#32, results := [.host [0x00#8]] } := by decide
theorem test_v_a11 : after (exec .disarm (transmitting [0x30#8, 0x36#8] 2 .byteInFlight))
      (fun t => (t.txDone, t.trace, t.phase, t.lastError)) = some (some .aborted, [.txAborted], .idle, none) := by decide

/-! ## Receive events, V-RX: one invocation of the sequencer -/

/-- V-RX1, V-TX16. -/
theorem test_v_rx1 : (seqInvoke (pending 0x2000#32 armed3)).phase = .receiving { buf := [], matched := false } ∧
    (seqInvoke (pending 0x2000#32 armed3)).isr = 0#32 ∧
    (seqInvoke (pending 0x2000#32 (transmitting [0x30#8] 1 .waitSFT))).faults = [.protocolViolation .transmitting .rxstart] := by
  decide
/-- V-RX2, P3 step 6, V-RX5 (the seventeenth byte), V-RX7. -/
theorem test_v_rx2 : (seqInvoke { pending 0x0001#32 (receiving [] false) with rxdr := 0x32#32 }).phase =
      .receiving { buf := [0x32#8], matched := false } ∧
    (seqInvoke { pending 0x0001#32 (receiving [] false) with rxdr := 0x43#32 }).phase =
      .receiving { buf := [0x43#8], matched := true } ∧
    (seqInvoke { pending 0x0001#32 (receiving sixteen true) with rxdr := 0x10#32 }).faults =
      [.protocolViolation .receiving .rxbr] ∧
    (seqInvoke (pending 0x0001#32 armed3)).faults = [.protocolViolation .idle .rxbr] := by decide
/-- V-RX3. -/
theorem test_v_rx3 : (seqInvoke (pending 0x0002#32 (receiving [0x03#8] true))).rxq = [[0x03#8]] ∧
    (seqInvoke (pending 0x0002#32 (receiving [0x03#8] true))).trace = [.rxDelivered [0x03#8]] := ⟨rfl, rfl⟩
/-- V-RX6, and S7. -/
theorem test_v_rx6 : (seqInvoke (pending 0x0002#32 (receiving [] false))).faults = [.protocolViolation .receiving .rxend] ∧
    (seqInvoke (pending 0x0002#32 (receiving [0x32#8, 0x0A#8] false))).trace = [.frameIgnored] ∧
    (seqInvoke (pending 0x0002#32 (receiving [0x32#8, 0x0A#8] false))).rxq = [] := by decide
theorem test_v_rx8 : (seqInvoke (pending 0x0008#32 (receiving [0x3F#8] true))).lastError = some .bitRisingError ∧
    (seqInvoke (pending 0x0008#32 (receiving [0x3F#8] true))).trace = [.receiveFailed .bitRisingError] := by decide
theorem test_v_rx9 : (seqInvoke (pending 0x0020#32 (receiving [0x3F#8] true))).lastError = some .longBitPeriodError := by decide
theorem test_v_rx10 : (seqInvoke (pending 0x0010#32 (receiving [0x32#8] false))).lastError = some .shortBitPeriodError ∧
    (seqInvoke (pending 0x0010#32 (receiving [0x32#8] false))).phase = .idle := by decide
/-- P5: a channel of capacity 2. -/
theorem test_p5 : (deliverAt 2 [0x4F#8] { armed3 with rxq := [[0x1F#8], [0x2F#8]] }).rxq = [[0x2F#8], [0x4F#8]] ∧
    (deliverAt 2 [0x4F#8] { armed3 with rxq := [[0x1F#8], [0x2F#8]] }).trace =
      [.rxDropOldest [0x1F#8], .rxDelivered [0x4F#8]] ∧
    (deliverAt 2 [0x2F#8] { armed3 with rxq := [[0x1F#8]] }).trace = [.rxDelivered [0x2F#8]] := by decide

/-! ## Transmit command and events, V-TX -/

theorem test_v_tx1 : after (exec (.transmit [0x30#8, 0x44#8, 0x41#8]) armed3) (fun t => t) =
    some { transmitting [0x30#8, 0x44#8, 0x41#8] 1 .waitSFT with
      trace := [.txByte 0x30#8], results := [.host [0x00#8]] } := by decide
/-- The checks and their order: V-TX4, V-TX5, V-TX6, V-TX7, V-TX8, V-TX17. -/
theorem test_v_tx4 : after (exec (.transmit (0x10#8 :: sixteen)) armed3) (fun t => t.results) = some [.host [0x02#8]] ∧
    after (exec (.transmit sixteen) armed3) (fun t => t.results) = some [.host [0x00#8]] ∧
    refusal (exec (.transmit [0x30#8]) State.reset) = some .notArmed ∧
    after (exec (.transmit []) State.reset) (fun t => t.results) = some [.host [0x02#8]] ∧
    after (exec (.transmit [0x30#8]) (receiving [] false)) (fun t => (t.results, t.txdr)) = some ([.host [0x03#8]], 0#32) ∧
    after (exec (.transmit [0x30#8]) (collected (.err .arbitrationLost) armed3)) (fun t => t.results) =
      some [.host [0x03#8]] := by decide
/-- V-TX9, V-TX13. -/
theorem test_v_tx9 : (seqInvoke { pending 0x0100#32 (transmitting [0x30#8, 0x44#8, 0x41#8] 1 .waitSFT) with txrdy := true }) =
      { transmitting [0x30#8, 0x44#8, 0x41#8] 2 .byteInFlight with txdr := 0x44#32, trace := [.txByte 0x44#8] } ∧
    (seqInvoke (pending 0x0100#32 (transmitting [0x30#8] 1 .waitSFT))).faults = [.protocolViolation .transmitting .txbr] := by
  decide
theorem test_v_tx10 : (seqInvoke (pending 0x1000#32 (transmitting [0x30#8, 0x36#8] 1 .waitSFT))).txDone = some (.err .ackFailure) ∧
    (seqInvoke (pending 0x1000#32 (transmitting [0x30#8, 0x36#8] 1 .waitSFT))).lastError = some .ackFailure := by decide
theorem test_v_tx11 : (seqInvoke (pending 0x0800#32 (transmitting [0x30#8, 0x36#8] 1 .waitSFT))).txDone = some (.err .lineError) := by
  decide
theorem test_v_tx12 : (seqInvoke (pending 0x0080#32 (transmitting [0x30#8, 0x36#8] 1 .waitSFT))).txDone =
    some (.err .arbitrationLost) := by decide
/-- V-TX2, V-TX14. -/
theorem test_v_tx2 : (seqInvoke (pending 0x0200#32 (transmitting [0x30#8] 1 .waitSFT))).txDone = some .ok ∧
    (seqInvoke (pending 0x0200#32 (transmitting [0x30#8] 1 .waitSFT))).trace = [.txSucceeded] ∧
    (seqInvoke (pending 0x0200#32 (transmitting [0x30#8, 0x36#8] 1 .waitSFT))).faults =
      [.protocolViolation .transmitting .txend] := by decide

/-! ## Host interface, V-H -/

/-- V-H1, V-H2. -/
theorem test_v_h1 : after (exec .txwait (transmitting [0x30#8] 1 .waitSFT)) (fun t => t) =
      some (transmitting [0x30#8] 1 .waitSFT) ∧
    refusal (exec .txwait armed3) = some .noTransmitToCollect := by decide
theorem test_v_h3 : after (exec .txwait (collected .aborted State.reset)) (fun t => (t.results, t.txDone)) =
    some ([.host [0x17#8]], none) := by decide
theorem test_v_h4 : after (exec .receive armed3) (fun t => t) = some armed3 := by decide
theorem test_v_h5 : after (exec .receive { armed3 with rxq := [[0x3F#8, 0x44#8], [0x03#8]] }) (fun t => (t.results, t.rxq)) =
    some ([.host [0x00#8, 0x02#8, 0x3F#8, 0x44#8]], [[0x03#8]]) := by decide
theorem test_v_h6 : after (exec .lastError { armed3 with lastError := some .shortBitPeriodError })
      (fun t => (t.results, t.lastError)) = some ([.host [0x12#8]], none) := by decide
theorem test_v_h7 : after (exec .lastError State.reset) (fun t => t.results) = some [.host [0x00#8]] := by decide

/-! ## LINE.raise -/

theorem test_raise_rxbr : after (exec (.rxbr 0x0003#16 0x0A#8) armed3) (fun t => (t.isr, t.rxdr)) = some (0x3#32, 0x0A#32) := by decide
theorem test_raise_rxend : after (exec (.rxend 0x0002#16 0#8) { armed3 with rxdr := 0x55#32 }) (fun t => (t.isr, t.rxdr)) =
    some (0x2#32, 0x55#32) := by decide
theorem test_raise_bre : after (exec (.bre 0x0008#16 0#8) (pending 0x1#32 armed3)) (fun t => t.isr) = some 0x9#32 := by decide
theorem test_raise_sbpe : after (exec (.sbpe 0x0010#16 0#8) { armed3 with ier := 0#32 }) (fun t => (t.isr, irq t)) = some (0x10#32, false) := by decide
theorem test_raise_lbpe : after (exec (.lbpe 0x0020#16 0#8) { armed3 with txrdy := false }) (fun t => (t.isr, t.txrdy)) = some (0x20#32, false) := by decide
theorem test_raise_arblst : after (exec (.arblst 0x2080#16 0#8) (transmitting [0x30#8] 1 .waitSFT)) (fun t => (t.isr, t.txrdy)) =
    some (0x2080#32, true) := by decide
theorem test_raise_txbr : after (exec (.txbr 0x0100#16 0#8) (transmitting [0x30#8] 1 .waitSFT)) (fun t => (t.isr, t.txrdy)) =
    some (0x100#32, true) := by decide
theorem test_raise_txend : after (exec (.txend 0x0200#16 0#8) (transmitting [0x30#8] 1 .waitSFT)) (fun t => (t.isr, t.txrdy)) =
    some (0x200#32, true) := by decide
theorem test_raise_txerr : after (exec (.txerr 0x0800#16 0#8) (transmitting [0x30#8] 1 .waitSFT)) (fun t => (t.isr, t.txrdy)) =
    some (0x800#32, true) := by decide
theorem test_raise_txacke : after (exec (.txacke 0x1000#16 0#8) (transmitting [0x30#8] 1 .waitSFT)) (fun t => (t.isr, t.txrdy)) =
    some (0x1000#32, true) := by decide
theorem test_raise_rxstart : after (exec (.rxstart 0x2000#16 0#8) armed3) (fun t => (t.isr, irq t)) = some (0x2000#32, true) := by decide
/-- R201, U17: no step while `EN = 0`. -/
theorem test_raise_disarmed : fault (exec (.rxstart 0x2000#16 0#8) State.reset) = some .lineHasNoStep := by decide

/-! ## Several events in one snapshot, V-D -/

theorem test_v_d1 : (seqInvoke { pending 0x2080#32 (transmitting [0x30#8, 0x36#8] 1 .waitSFT) with txrdy := true }) =
    { receiving [] false with
      txdr := 0x30#32, txDone := some (.err .arbitrationLost), lastError := some .arbitrationLost
      trace := [.txFailed .arbitrationLost] } := by decide
theorem test_v_d3 : (seqInvoke { pending 0x1100#32 (transmitting [0x30#8, 0x36#8] 1 .waitSFT) with txrdy := true }).txdr = 0x30#32 ∧
    (seqInvoke { pending 0x1100#32 (transmitting [0x30#8, 0x36#8] 1 .waitSFT) with txrdy := true }).faults = [] := by decide
/-- R165, R166: `ARBLST` with a byte received, a receive error and an end is never taken for progress. -/
theorem test_error_before_progress :
    (seqInvoke (pending 0x008B#32 (transmitting [0x30#8, 0x36#8] 1 .waitSFT))).faults =
      [.protocolViolation .idle .bre, .protocolViolation .idle .rxbr, .protocolViolation .idle .rxend] ∧
    (seqInvoke (pending 0x0189#32 (receiving [0x3F#8] true))).faults =
      [.protocolViolation .receiving .arblst, .protocolViolation .idle .txbr] := by decide
theorem test_v_d5 : (seqInvoke (pending 0x2008#32 (receiving [0x3F#8] true))).phase = .receiving { buf := [], matched := false } ∧
    (seqInvoke (pending 0x2008#32 (receiving [0x3F#8] true))).faults = [] := by decide
/-- V-D2, V-D6. -/
theorem test_v_d6 : (seqInvoke { pending 0x0003#32 (receiving [0x3F#8] true) with rxdr := 0x44#32 }).rxq = [[0x3F#8, 0x44#8]] ∧
    (seqInvoke { pending 0x2003#32 armed3 with rxdr := 0x3F#32 }).rxq = [[0x3F#8]] := ⟨rfl, rfl⟩
theorem test_v_d8 : (seqInvoke (pending 0x18B8#32 armed3)).faults =
    [.protocolViolation .idle .arblst, .protocolViolation .idle .txacke, .protocolViolation .idle .txerr,
     .protocolViolation .idle .bre, .protocolViolation .idle .sbpe, .protocolViolation .idle .lbpe] := by decide
theorem test_v_d10 : (seqInvoke { pending 0x0300#32 (transmitting [0x30#8, 0x36#8] 1 .waitSFT) with txrdy := true }).trace =
      [.txByte 0x36#8, .txSucceeded] ∧
    (seqInvoke { pending 0x0300#32 (transmitting [0x30#8, 0x36#8] 1 .waitSFT) with txrdy := true }).txrdy = false := by decide
theorem test_v_d12 : (seqInvoke { pending 0x2001#32 armed3 with ier := 0x1#32, rxdr := 0x3F#32 }).isr = 0x2000#32 ∧
    (seqInvoke { pending 0x2001#32 armed3 with ier := 0x1#32, rxdr := 0x3F#32 }).faults = [.protocolViolation .idle .rxbr] := by
  decide

/-! ## One step: turns, and the placing of an operation -/

/-- V-A12: `DISARM` waits while `irq = 1` and stays first in line. -/
theorem test_v_a12 : after (step { pending 0x2000#32 armed3 with turns := [.host], hostIn := [0x02#8] }) (fun t => (t.hostIn, t.cr, t.results)) =
    some ([0x02#8], 0x1#32, []) := by decide
theorem test_host_turn : after (step { State.reset with turns := [.host], hostIn := [0x06#8, 0x05#8] }) (fun t => (t.hostIn, t.results)) =
    some ([0x05#8], [.host [0x00#8]]) := by decide
/-- V-H1, U18: a `DISARM` issued behind a held `TXWAIT` runs; the `TXWAIT` is kept, and the next turn gives it `Aborted`. -/
theorem test_v_h1_disarm : after (step { transmitting [0x30#8] 1 .waitSFT with turns := [.host], hostIn := [0x04#8, 0x02#8] })
      (fun t => (t.hostIn, t.cr, t.txDone, t.results)) = some ([0x04#8], 0#32, some .aborted, [.host [0x00#8]]) ∧
    after (step { collected .aborted State.reset with turns := [.host], hostIn := [0x04#8] }) (fun t => (t.hostIn, t.results)) =
      some ([], [.host [0x17#8]]) := by decide
/-- A held `RECEIVE` does not hold a `TRANSMIT`, and with nothing else issued the turn passes. -/
theorem test_held_receive :
    after (step { armed3 with turns := [.host], hostIn := [0x05#8, 0x03#8, 0x01#8, 0x30#8, 0x06#8] }) (fun t => (t.hostIn, t.st)) =
      some ([0x05#8, 0x06#8], .transmitting) ∧
    after (step { armed3 with turns := [.host], hostIn := [0x05#8, 0x05#8] }) (fun t => (t.hostIn, t.results)) =
      some ([0x05#8, 0x05#8], []) := by decide
theorem test_line_turn_disarmed : after (step { State.reset with turns := [.line], lineIn := [0x002000#24] }) (fun t => (t.lineIn, t.isr)) =
    some ([0x002000#24], 0#32) := by decide
theorem test_seq_turn : after (step (pending 0x2000#32 armed3)) (fun t => (t.st, t.isr)) = some (.receiving, 0#32) := by decide
theorem test_place_arm : after (step (State.reset.withFetchWord 40 0x0000000301)) (fun t => (t.cfgr, t.cr, t.hostIn)) =
    some (0x00080000#32, 0x1#32, []) := by decide
theorem test_place_event : after (step (State.reset.withFetchWord 24 0x002000)) (fun t => (t.isr, t.lineIn)) = some (0x2000#32, []) := by decide
theorem test_place_write : after (step (State.reset.withFetchWord 40 0x0F00118084)) (fun t => (t.cfgr, t.regIn)) =
    some (0x8011000F#32, []) := by decide
theorem test_table_words : decodeTableWord 8 0x02 = some .disarm ∧ decodeTableWord 8 0x10 = some .rdIsr ∧
    decodeTableWord 8 0x80 = some (.wrCr 0#32) ∧ decodeTableWord 24 0x000080 = some (.arblst 0x0080#16 0#8) ∧
    decodeTableWord 24 0x000004 = none := by decide

/-! ## Witnesses: for each statement with hypotheses, states and operands that meet them, clause by clause -/

theorem witness_StepRunsTheDecodedOperation :
    (let s : State := { armed3 with turns := [.host], hostIn := [0x02#8] }
     s.turns = [.host] ∧ irq s = false ∧ s.hostIn = [] ++ [0x02#8] ∧ allWait [] s ∧
       decodeHost [0x02#8] = .ok (.disarm, []) ∧ waits .disarm s = false) ∧
    (let s : State := { transmitting [0x30#8] 1 .waitSFT with turns := [.host], hostIn := [0x05#8, 0x04#8, 0x02#8, 0x06#8] }
     irq s = false ∧ s.hostIn = [0x05#8, 0x04#8] ++ [0x02#8, 0x06#8] ∧ allWait [0x05#8, 0x04#8] s ∧
       decodeHost [0x02#8, 0x06#8] = .ok (.disarm, [0x06#8]) ∧ waits .disarm s = false) ∧
    (let s : State := { armed3 with turns := [.line], lineIn := [0x002000#24] }
     s.turns = [.line] ∧ decodeEvent 0x002000#24 = .ok (.rxstart 0x2000#16 0#8) ∧ armed s = true) ∧
    (let s : State := { armed3 with turns := [.reg], regIn := [0x10#8] }
     s.turns = [.reg] ∧ decodeAccess s.regIn = .ok (.rdIsr, [])) :=
  ⟨⟨rfl, by decide, rfl, by unfold allWait; decide, rfl, by decide⟩,
    ⟨by decide, rfl, by unfold allWait; decide, rfl, by decide⟩, ⟨rfl, rfl, by decide⟩, rfl, rfl⟩

theorem witness_HostCommandsWait :
    irq { pending 0x2000#32 armed3 with turns := [.host] } = true ∧
    (let s : State := { transmitting [0x30#8] 1 .waitSFT with turns := [.host], hostIn := [0x04#8, 0x05#8] }; allWait s.hostIn s) ∧
    (let s : State := { armed3 with turns := [.host], hostIn := [0x05#8] }; allWait s.hostIn s) := by
  unfold allWait; decide

theorem witness_DisarmLiftsTheHoldOfTxWait :
    let s : State := { transmitting [0x30#8] 1 .waitSFT with
      turns := [.host, .host], hostIn := 0x04#8 :: ([0x05#8] ++ 0x02#8 :: [0x06#8]) }
    allWait [0x05#8] s ∧ s.phase = .transmitting { frame := [0x30#8], idx := 1, sub := .waitSFT } ∧ s.txDone = none ∧
      irq s = false := by
  unfold allWait; decide

theorem witness_SequencerLiftsTheHolds :
    (let s := pending 0x0200#32 (transmitting [0x30#8] 1 .waitSFT)
     1 = ([0x30#8] : Frame).length ∧ s.txDone = none ∧ s.isr &&& s.ier = 0x00000200#32) ∧
    (let s := pending 0x1000#32 (transmitting [0x30#8] 1 .waitSFT)
     (Event.txacke, 0x15#8) ∈ [(Event.arblst, 0x14#8), (.txacke, 0x15#8), (.txerr, 0x16#8)] ∧
       s.isr &&& s.ier = 1#32 <<< Event.txacke.bit) ∧
    (let s := pending 0x0002#32 (receiving [0x03#8] true); s.rxq = [] ∧ s.isr &&& s.ier = 0x00000002#32) ∧
    (pending 0x3BBB#32 armed3).isr &&& ~~~0x00003BBB#32 = 0#32 := by decide

theorem witness_LineHasNoStepWhileDisarmed :
    armed { State.reset with turns := [.line], lineIn := [0x002000#24] } = false := by decide

theorem witness_SequencerRunsExactlyOnIrq :
    irq { pending 0x2000#32 armed3 with turns := [.seq] } = true ∧ irq { armed3 with turns := [.seq] } = false ∧
    (pending 0x2000#32 armed3).turns = [] := by decide

theorem witness_DecodeOfEncode :
    (Instr.txacke 0x1000#16 0#8).wellFormed = true ∧ (Instr.disarm).wellFormed = true ∧ encode .disarm = .host [0x02#8] ∧
    (Instr.wrIer 0x3BBB#32).wellFormed = true ∧
    encode (.wrIer 0x3BBB#32) = .reg [0x94#8, 0x00#8, 0x00#8, 0x3B#8, 0xBB#8] := by decide

theorem witness_EncodeOfDecode :
    decodeHost [0x03#8, 0x01#8, 0x30#8, 0x04#8] = .ok (.transmit [0x30#8], [0x04#8]) ∧
    decodeEvent 0x320001#24 = .ok (.rxbr 0x0001#16 0x32#8) ∧ decodeAccess [0x14#8, 0x10#8] = .ok (.rdIer, [0x10#8]) :=
  ⟨rfl, rfl, rfl⟩

theorem witness_IllegalEncodingsAreRefused :
    ((0x00#8).toNat < 1 ∧ 6 < (0x07#8).toNat) ∧ BitVec.extractLsb' 5 3 0x20#8 ≠ 0#3 ∧
    ([0x03#8, 0x00#8, 0x00#8] : List Byte).length < 4 ∧ ([] : List Byte).length < (0x01#8).toNat ∧
    ((0x008000#24).getLsbD 15 = true ∧
      ((0x320002#24).extractLsb' 16 8 ≠ 0#8 ∧ (0x320002#24).getLsbD 0 = false) ∧ (0x000000#24).extractLsb' 0 16 = 0#16) ∧
    BitVec.extractLsb' 5 2 0x20#8 ≠ 0#2 ∧
    BitVec.extractLsb' 0 5 0x18#8 ∉ [0x00#5, 0x04#5, 0x08#5, 0x0C#5, 0x10#5, 0x14#5] := by decide

theorem witness_FetchRefusesByName :
    (let s : State := { armed3 with turns := [.host], hostIn := [0x05#8] ++ [0x07#8] }
     irq s = false ∧ allWait [0x05#8] s ∧ allWait [] s ∧ decodeHost [0x07#8] = .error .illegalCommand) ∧
    (armed { armed3 with turns := [.line], lineIn := [0x000004#24] } = true ∧ decodeEvent 0x000004#24 = .error .illegalEvent) ∧
    decodeAccess [0x18#8] = .error .badRegisterAccess :=
  ⟨⟨by decide, by unfold allWait; decide, by unfold allWait; decide, rfl⟩, ⟨by decide, rfl⟩, rfl⟩

theorem witness_RegisterSpaceAccess :
    (2 ≠ 4 ∨ 0x00 ∉ [0x00, 0x04, 0x08, 0x0C, 0x10, 0x14]) ∧ (4 ≠ 4 ∨ 0x18 ∉ [0x00, 0x04, 0x08, 0x0C, 0x10, 0x14]) ∧
    (4 ≠ 4 ∨ 0x02 ∉ [0x00, 0x04, 0x08, 0x0C, 0x10, 0x14]) := by decide

theorem witness_ControlWrite :
    (0xFFFFFFFE#32).getLsbD 0 = false ∧ (0x00000001#32).getLsbD 0 = true ∧ State.reset.cr.getLsbD 0 = false ∧
    armed3.cr.getLsbD 0 = true := by decide

theorem witness_ConfigurationWrite : State.reset.cr.getLsbD 0 = false ∧ armed3.cr.getLsbD 0 = true := by decide

theorem witness_TxDataWrite : State.reset.txrdy = false ∧ armed3.txrdy = true := by decide

theorem witness_ArmProgramsTheRegisters :
    irq armed3 = false ∧ armed3.cr.getLsbD 0 = true ∧ irq State.reset = false ∧ State.reset.cr.getLsbD 0 = false ∧
    (own (some 16#8)).own = some 16#8 ∧ 15 < (16#8).toNat ∧ (∀ a, (own (some 15#8)).own = some a → a.toNat ≤ 15) ∧
    (∀ a, (own none).own = some a → a.toNat ≤ 15) := by decide

/-- The agents' invariant at reset and while armed. -/
theorem witness_AgentInv : AgentInv State.reset ∧ AgentInv armed3 :=
  ⟨⟨by decide, by decide, by decide⟩, ⟨by decide, by decide, by decide⟩⟩

theorem witness_ReadyAfterArm :
    AgentInv State.reset ∧ State.reset.cr.getLsbD 0 = false ∧ (∀ a, (own (some 15#8)).own = some a → a.toNat ≤ 15) :=
  ⟨witness_AgentInv.1, by decide, by decide⟩

theorem witness_ReArmWithAnotherConfiguration :
    AgentInv State.reset ∧ State.reset.cr.getLsbD 0 = false ∧ (∀ a, (own (some 0#8)).own = some a → a.toNat ≤ 15) ∧
    (∀ a, (own none).own = some a → a.toNat ≤ 15) := ⟨witness_AgentInv.1, by decide, by decide, by decide⟩

theorem witness_DisarmStopsTheBlock :
    irq (transmitting [0x30#8] 1 .waitSFT) = false ∧
    (transmitting [0x30#8] 1 .waitSFT).phase = .transmitting { frame := [0x30#8], idx := 1, sub := .waitSFT } ∧
    irq (receiving [0x3F#8] true) = false ∧ (receiving [0x3F#8] true).st ≠ .transmitting := by decide

theorem witness_DisarmIsIdempotent : irq (transmitting [0x30#8] 1 .waitSFT) = false := by decide

theorem witness_TransmitIsCheckedAndStarted :
    irq armed3 = false ∧ irq State.reset = false ∧ 16 < (0x10#8 :: sixteen).length ∧ ([] : Frame).length = 0 ∧
    1 ≤ sixteen.length ∧ sixteen.length ≤ 16 ∧ State.reset.cr.getLsbD 0 = false ∧ armed3.cr.getLsbD 0 = true ∧
    (receiving [] false).phase ≠ .idle ∧ (collected .ok armed3).txDone ≠ none ∧ armed3.phase = .idle ∧ armed3.txDone = none ∧
    armed3.txrdy = true ∧ irq { armed3 with txrdy := false } = false ∧
    ({ armed3 with txrdy := false } : State).phase = .idle := by decide

theorem witness_BusyExactlyWhileInFlightOrReceiving :
    irq (receiving [] false) = false ∧ (receiving [] false).cr.getLsbD 0 = true ∧ (receiving [] false).st = .receiving ∧
    inFlight (collected .ok armed3) = true ∧ inFlight (transmitting [0x30#8] 1 .waitSFT) = true ∧ inFlight armed3 = false ∧
    irq State.reset = false ∧ State.reset.cr.getLsbD 0 = false := by decide

theorem witness_TxWaitTakesTheOutcome :
    irq (collected .ok armed3) = false ∧ (collected .ok armed3).txDone = some .ok ∧
    (collected (.err .arbitrationLost) armed3).txDone = some (.err .arbitrationLost) ∧
    (collected (.err .ackFailure) armed3).txDone = some (.err .ackFailure) ∧
    (collected (.err .lineError) armed3).txDone = some (.err .lineError) ∧
    (collected .aborted armed3).txDone = some .aborted ∧
    ((transmitting [0x30#8] 1 .waitSFT).txDone = none ∧ (transmitting [0x30#8] 1 .waitSFT).st = .transmitting) ∧
    armed3.txDone = none ∧ armed3.st ≠ .transmitting := by decide

theorem witness_ReceivePopsTheOldestFrame :
    irq { armed3 with rxq := [[0x3F#8], [0x03#8]] } = false ∧ irq armed3 = false ∧ armed3.rxq = [] := by decide

theorem witness_LastErrorReadsAndClears :
    irq { armed3 with lastError := some .lineError } = false ∧ irq armed3 = false ∧ armed3.lastError = none := by decide

theorem witness_NoHostStepWhileInterruptPending : irq (pending 0x2000#32 armed3) = true := by decide

theorem witness_LineRaiseSetsStatus :
    armed3.cr.getLsbD 0 = true ∧ legalEvent 0x3BBB#16 0xFF#8 = true ∧ legalEvent 0x2000#16 0#8 = true := by decide

theorem witness_RepeatedRaisesMerge :
    armed3.cr.getLsbD 0 = true ∧ legalEvent 0x0001#16 0x3F#8 = true ∧ legalEvent 0x0001#16 0x44#8 = true := by decide

theorem witness_StartBitStartsAReceive :
    (takesOnly .rxstart (pending 0x2000#32 armed3) ∧ (pending 0x2000#32 armed3).phase = .idle) ∧
    takesOnly .rxstart (pending 0x2000#32 (receiving [] false)) ∧ (pending 0x2000#32 (receiving [] false)).phase ≠ .idle :=
  ⟨⟨by unfold takesOnly; decide, by decide⟩, by unfold takesOnly; decide, by decide⟩

theorem witness_ByteReceivedIsAppended :
    takesOnly .rxbr (pending 0x0001#32 (receiving (sixteen.drop 1) true)) ∧ (sixteen.drop 1).length < 16 ∧
    takesOnly .rxbr (pending 0x0001#32 (receiving [] false)) ∧
    takesOnly .rxbr (pending 0x0001#32 (receiving sixteen true)) ∧ 16 ≤ sixteen.length ∧
    takesOnly .rxbr (pending 0x0001#32 armed3) ∧ armed3.st ≠ .receiving := by unfold takesOnly; decide

theorem witness_ReceiveCompleteDeliversOrIgnores :
    takesOnly .rxend (pending 0x0002#32 (receiving [0x03#8] true)) ∧
    takesOnly .rxend (pending 0x0002#32 (receiving [0x32#8] false)) ∧
    takesOnly .rxend (pending 0x0002#32 (receiving [] false)) ∧
    takesOnly .rxend (pending 0x0002#32 armed3) ∧ armed3.st ≠ .receiving := by unfold takesOnly; decide

theorem witness_DeliveryDropsOnlyTheOldest :
    ({ armed3 with rxq := [[0x1F#8]] } : State).rxq.length = 1 ∧ armed3.rxq.length ≠ 1 := by decide

theorem witness_ReceiveErrorDiscardsTheFrame :
    takesOnly .bre (pending 0x0008#32 (receiving [] false)) ∧ takesOnly .sbpe (pending 0x0010#32 (receiving [] false)) ∧
    takesOnly .lbpe (pending 0x0020#32 (receiving [] false)) ∧ (receiving [] false).st = .receiving ∧
    takesOnly .lbpe (pending 0x0020#32 armed3) ∧ armed3.st ≠ .receiving := by unfold takesOnly; decide

theorem witness_ByteRequestWritesTheNextByte :
    (takesOnly .txbr { pending 0x0100#32 (transmitting [0x30#8, 0x36#8] 1 .waitSFT) with txrdy := true } ∧
      ([0x30#8, 0x36#8] : Frame)[1]? = some 0x36#8) ∧
    (takesOnly .txbr (pending 0x0100#32 (transmitting [0x30#8, 0x36#8] 1 .waitSFT)) ∧
      (transmitting [0x30#8, 0x36#8] 1 .waitSFT).txrdy = false) ∧
    takesOnly .txbr (pending 0x0100#32 (transmitting [0x30#8] 1 .waitSFT)) ∧
    takesOnly .txbr (pending 0x0100#32 armed3) ∧ armed3.st ≠ .transmitting := by unfold takesOnly; decide

theorem witness_TransmitCompleteReportsOk :
    takesOnly .txend (pending 0x0200#32 (transmitting [0x30#8] 1 .waitSFT)) ∧ 1 = ([0x30#8] : Frame).length ∧
    takesOnly .txend (pending 0x0200#32 (transmitting [0x30#8, 0x36#8] 1 .waitSFT)) ∧
    1 ≠ ([0x30#8, 0x36#8] : Frame).length ∧
    takesOnly .txend (pending 0x0200#32 armed3) ∧ armed3.st ≠ .transmitting := by unfold takesOnly; decide

theorem witness_TransmitErrorReportsItsKind :
    takesOnly .arblst (pending 0x0080#32 (transmitting [0x30#8] 1 .waitSFT)) ∧
    takesOnly .txacke (pending 0x1000#32 (transmitting [0x30#8] 1 .waitSFT)) ∧
    takesOnly .txerr (pending 0x0800#32 (transmitting [0x30#8] 1 .waitSFT)) ∧
    (transmitting [0x30#8] 1 .waitSFT).st = .transmitting ∧
    takesOnly .arblst (pending 0x0080#32 armed3) ∧ armed3.st ≠ .transmitting := by unfold takesOnly; decide

theorem witness_TransmitErrorSupersedesProgress :
    let s (bits : Word) := pending bits (transmitting [0x30#8, 0x36#8] 1 .waitSFT)
    let w (bits : Word) : Word := (s bits).isr &&& (s bits).ier
    (s 0x0081#32).phase = .transmitting { frame := [0x30#8, 0x36#8], idx := 1, sub := .waitSFT } ∧
    (firstTxError (w 0x0081#32) = some .arbitrationLost ∧ (w 0x0081#32).getLsbD 13 = false) ∧
    (firstTxError (w 0x3002#32) = some .ackFailure ∧ (w 0x3002#32).getLsbD 13 = true ∧ (w 0x3002#32).getLsbD 0 = false) ∧
    (firstTxError (w 0x2801#32) = some .lineError ∧ (w 0x2801#32).getLsbD 13 = true ∧ (w 0x2801#32).getLsbD 0 = true ∧
      (w 0x2801#32).getLsbD 1 = false) ∧
    (firstTxError (w 0x3BBB#32) = some .arbitrationLost ∧ (w 0x3BBB#32).getLsbD 13 = true ∧ (w 0x3BBB#32).getLsbD 0 = true ∧
      (w 0x3BBB#32).getLsbD 1 = true) := by decide

theorem witness_ReceiveErrorSupersedesProgress :
    let s := pending 0x3BBB#32 (receiving [0x3F#8] true)
    s.phase = .receiving { buf := [0x3F#8], matched := true } ∧ firstRxError (s.isr &&& s.ier) = some .bitRisingError ∧
    firstRxError 0x0032#32 = some .shortBitPeriodError ∧ firstRxError 0x0023#32 = some .longBitPeriodError := by decide

theorem witness_ProgressOfOneSnapshotInOrder :
    ((sixteen.drop 1).length < 16 ∧
      (let s := pending 0x0003#32 (receiving (sixteen.drop 1) true); s.isr &&& s.ier &&& 0x00003BBB#32 = 0x00000003#32)) ∧
    (armed3.phase = .idle ∧ (let s := pending 0x2003#32 armed3; s.isr &&& s.ier &&& 0x00003BBB#32 = 0x00002003#32)) ∧
    (let s : State := { pending 0x0300#32 (transmitting [0x30#8, 0x36#8] 1 .waitSFT) with txrdy := true }
     ([0x30#8, 0x36#8] : Frame)[1]? = some 0x36#8 ∧ 1 + 1 = ([0x30#8, 0x36#8] : Frame).length ∧ s.txrdy = true ∧
      s.isr &&& s.ier &&& 0x00003BBB#32 = 0x00000300#32) := by decide

theorem witness_ViolationsDoNotEndTheInvocation :
    (armed3.phase = .idle ∧ (let s := pending 0x18B8#32 armed3; s.isr &&& s.ier &&& 0x00003BBB#32 = 0x000018B8#32)) ∧
    1 = ([0x30#8] : Frame).length ∧
    (let s := pending 0x0300#32 (transmitting [0x30#8] 1 .waitSFT); s.isr &&& s.ier &&& 0x00003BBB#32 = 0x00000300#32) := by
  decide

/-- A state with every part of `BlockInv` in use, and a step from it. -/
theorem witness_StepKeepsInv :
    BlockInv { pending 0x0001#32 (receiving (sixteen.drop 1) true) with rxq := [sixteen] } ∧
    step { pending 0x0001#32 (receiving (sixteen.drop 1) true) with rxq := [sixteen] } =
      .next (seqInvoke { pending 0x0001#32 (receiving (sixteen.drop 1) true) with rxq := [sixteen] }) := by
  refine ⟨⟨by decide, by decide, by decide, by decide, by decide, by decide, by decide, ?_, by decide, ?_, ?_⟩, rfl⟩
  · show (sixteen.drop 1).length ≤ 16
    decide
  · simp [Config.rxqCap]
  · intro f hf
    rw [List.mem_singleton.mp hf]
    decide

/-- The bounds of a transmit in progress can be met. -/
theorem witness_phaseBounds :
    phaseBounds (.transmitting { frame := sixteen, idx := 16, sub := .byteInFlight }) := by
  unfold phaseBounds; decide

theorem witness_AgentStepKeepsAgentInv :
    AgentInv armed3 ∧ ({ armed3 with turns := [.host], hostIn := [0x02#8] } : State).turns.head? ≠ some .reg ∧
    (after (step { armed3 with turns := [.host], hostIn := [0x02#8] }) fun t => t.cr) = some 0#32 :=
  ⟨witness_AgentInv.2, by decide, by decide⟩

theorem witness_ConfigurationFrozenWhileArmed :
    armed3.cr.getLsbD 0 = true ∧
    (after (step { armed3 with turns := [.reg], regIn := encodeWrite .cfgr 0#32 }) fun t => t.cfgr) = some 0x00080000#32 := by
  decide

theorem witness_HandOffWriters :
    (after (exec .receive { armed3 with rxq := [[0x3F#8]] }) fun t => t.rxq) = some [] ∧
    (after (exec .txwait (collected .ok armed3)) fun t => t.txDone) = some none ∧
    (after (exec .lastError { armed3 with lastError := some .lineError }) fun t => t.lastError) = some none ∧
    (handle .txend (transmitting [0x30#8] 1 .waitSFT)).txDone ≠ (transmitting [0x30#8] 1 .waitSFT).txDone ∧
    (handle .txerr (transmitting [0x30#8] 1 .waitSFT)).lastError ≠ (transmitting [0x30#8] 1 .waitSFT).lastError ∧
    (handle .bre (receiving [] false)).lastError ≠ (receiving [] false).lastError := by decide

theorem witness_HandOffWriters_rxq : (handle .rxend (receiving [0x03#8] true)).rxq ≠ (receiving [0x03#8] true).rxq := by
  show ([[0x03#8]] : List Frame) ≠ []
  simp

theorem witness_ViolationsAreExactlyThePVCells :
    armed3.cr.getLsbD 0 = true ∧ armed3.ier = 0x00003BBB#32 ∧ armed3.isr = 0#32 ∧
    transition (receiving (sixteen.drop 1) true).phase .rxbr = true ∧ transition (receiving sixteen true).phase .rxbr = false ∧
    transition (receiving [0x03#8] true).phase .rxend = true ∧ transition (receiving [] false).phase .rxend = false ∧
    transition (transmitting [0x30#8, 0x36#8] 1 .waitSFT).phase .txbr = true ∧
    transition (transmitting [0x30#8] 1 .waitSFT).phase .txbr = false := by decide

/-- The hypotheses of the three frame properties: the two addresses of S7 and S8, sixteen bytes, and the words they raise. -/
theorem witness_InjectedFrameIsDeliveredOnce :
    sixteen.length ≤ 16 ∧ armed3.cr.getLsbD 0 = true ∧ armed3.ier = 0x00003BBB#32 ∧ armed3.isr = 0#32 ∧
    armed3.phase = .idle ∧ accept armed3.cfgr (BitVec.extractLsb' 0 4 0x3F#8) = true ∧
    accept armed3.cfgr (BitVec.extractLsb' 0 4 0x32#8) = false ∧
    injectWords [0x32#8, 0x0A#8] = [0x002000#24, 0x320001#24, 0x0A0001#24, 0x000002#24] := by decide

theorem witness_ReceiveErrorNeverCompletesAFrame :
    (Event.lbpe, BusErrorKind.longBitPeriodError) ∈ [(Event.bre, BusErrorKind.bitRisingError), (.sbpe, .shortBitPeriodError),
      (.lbpe, .longBitPeriodError)] ∧
    ([] : List Byte).length ≤ 16 ∧ sixteen.length ≤ 16 ∧ armed3.phase = .idle := by decide

theorem witness_TransmittedFrameIsWrittenInOrder :
    sixteen.length ≤ 16 ∧ armed3.cr.getLsbD 0 = true ∧ armed3.ier = 0x00003BBB#32 ∧ armed3.isr = 0#32 ∧
    armed3.phase = .idle ∧ armed3.txDone = none ∧ armed3.txrdy = true ∧
    transmitWords 3 = [0x000100#24, 0x000100#24, 0x000200#24] := by decide

end Sys2Proof.Tests
end

section
/-!
PROOF. What `exec`, `handle` and `step` can do, said once each: the next states they can answer, with the guards under
which they answer them. The invariants and the frame claims of the state are case splits on these.
-/
namespace Sys2Proof.Machine
open Sys2Proof.Safety

/-! ## Named updates: what they leave unchanged -/

section registerWrite
variable (r : Reg) (v : Word) (s : State)
@[simp] theorem writeReg_phase : (writeReg r v s).phase = s.phase := (writeReg_sameBlock r v s).phase
@[simp] theorem writeReg_rxq : (writeReg r v s).rxq = s.rxq := (writeReg_sameBlock r v s).rxq
@[simp] theorem writeReg_txDone : (writeReg r v s).txDone = s.txDone := (writeReg_sameBlock r v s).txDone
@[simp] theorem writeReg_lastError : (writeReg r v s).lastError = s.lastError := (writeReg_sameBlock r v s).lastError
end registerWrite

/-- Aborting a transmit reaches only the completion slot and the labels; `41_init_teardown.md` R135. -/
theorem abortTransmit_eq (s : State) :
    abortTransmit s = { s with txDone := (abortTransmit s).txDone, trace := (abortTransmit s).trace } := by
  unfold abortTransmit; split <;> rfl

@[simp] theorem abortTransmit_rxq (s : State) : (abortTransmit s).rxq = s.rxq := by rw [abortTransmit_eq]

@[simp] theorem abortTransmit_lastError (s : State) : (abortTransmit s).lastError = s.lastError := by
  rw [abortTransmit_eq]

/-! ## The operations -/

/-- The next states `exec` can answer from `s`, for each operation, with the guard of each. -/
inductive ExecEffect (s : State) : Instr → State → Prop where
  | preempted (i) (hi : irq s = true) : ExecEffect s i s
  | held (i) (hw : waits i s = true) : ExecEffect s i s
  | armRejected (cfg) (ha : armed s = false) (ho : ownOutOfRange cfg = true) :
      ExecEffect s (.arm cfg) (answerCode codeConfigurationInvalid s)
  | arms (cfg) (ha : armed s = false) (ho : ownOutOfRange cfg = false) :
      ExecEffect s (.arm cfg) (answerCode codeOk (setPhase .idle (program cfg s)))
  | disarms : ExecEffect s .disarm (answerCode codeOk (setPhase .idle (abortTransmit (unprogram s))))
  | frameInvalid (f) (hf : f = [] ∨ 16 < f.length) : ExecEffect s (.transmit f) (answerCode codeInvalidFrame s)
  | transmitBusy (f) (ha : armed s = true) (hb : s.st ≠ .idle ∨ s.txDone ≠ none) :
      ExecEffect s (.transmit f) (answerCode codeBusy s)
  | transmitStarts (b0 payload) (hl : (b0 :: payload).length ≤ 16) (ha : armed s = true) (hs : s.st = .idle)
      (hd : s.txDone = none) :
      ExecEffect s (.transmit (b0 :: payload)) (answerCode codeOk (startTransmit b0 payload s))
  | collects (r) (hd : s.txDone = some r) : ExecEffect s .txwait (answerCode r.code { s with txDone := none })
  | receives (f q) (hq : s.rxq = f :: q) :
      ExecEffect s .receive (answer (.host (receiveResult f)) { s with rxq := q })
  | readsLatch : ExecEffect s .lastError (answerCode (lastErrorCode s.lastError) { s with lastError := none })
  | raises (e bits rxd) (ha : armed s = true) (hl : legalEvent bits rxd = true) :
      ExecEffect s (Instr.ofEvent e bits rxd) (raised bits rxd s)
  | reads (r) : ExecEffect s (Instr.read r) (answer (.reg (readReg r s)) s)
  | writes (r v) : ExecEffect s (Instr.write r v) (writeReg r v s)

theorem exec_read (r : Reg) (s : State) : exec (Instr.read r) s = readStep r s := by cases r <;> rfl

theorem exec_write (r : Reg) (v : Word) (s : State) : exec (Instr.write r v) s = writeStep r v s := by cases r <;> rfl

/-- A `HOST` step passes while `irq = 1`, and else does what the command does; `20_memory.md` R68. -/
theorem hostStep_next {k : State → Host.Outcome State Fault Refusal} {s t : State} (h : hostStep k s = .next t) :
    (irq s = true ∧ t = s) ∨ (irq s = false ∧ k s = .next t) := by
  cases hi : irq s with
  | true => rw [hostStep_waiting hi] at h; cases h; exact .inl ⟨rfl, rfl⟩
  | false => rw [hostStep_enabled hi] at h; exact .inr ⟨rfl, h⟩

theorem execArm_effect {cfg : Configuration} {s t : State} (h : execArm cfg s = .next t) :
    ExecEffect s (.arm cfg) t := by
  unfold execArm at h
  rcases hostStep_next h with ⟨hi, rfl⟩ | ⟨-, h⟩
  · exact .preempted _ hi
  · cases ha : armed s with
    | true => simp [ha] at h
    | false =>
      cases ho : ownOutOfRange cfg with
      | true => simp [ha, ho] at h; subst h; exact .armRejected cfg ha ho
      | false => simp [ha, ho] at h; subst h; exact .arms cfg ha ho

theorem execDisarm_effect {s t : State} (h : execDisarm s = .next t) : ExecEffect s .disarm t := by
  unfold execDisarm at h
  rcases hostStep_next h with ⟨hi, rfl⟩ | ⟨-, h⟩
  · exact .preempted _ hi
  · cases h; exact .disarms

theorem execTransmit_effect {f : Frame} {s t : State} (h : execTransmit f s = .next t) :
    ExecEffect s (.transmit f) t := by
  unfold execTransmit at h
  rcases hostStep_next h with ⟨hi, rfl⟩ | ⟨-, h⟩
  · exact .preempted _ hi
  · cases f with
    | nil => cases h; exact .frameInvalid _ (.inl rfl)
    | cons b0 payload =>
      dsimp only at h
      split at h
      next hl => cases h; exact .frameInvalid _ (.inr hl)
      next hl =>
        split at h
        next => cases h
        next ha =>
          have ha : armed s = true := by simpa using ha
          split at h
          next hb => cases h; exact .transmitBusy _ ha (by simpa [Option.isSome_iff_ne_none] using hb)
          next hb =>
            obtain ⟨hs, hd⟩ : s.st = .idle ∧ s.txDone = none := by simpa using hb
            cases h; exact .transmitStarts b0 payload (Nat.not_lt.mp hl) ha hs hd

theorem execTxwait_effect {s t : State} (h : execTxwait s = .next t) : ExecEffect s .txwait t := by
  unfold execTxwait at h
  rcases hostStep_next h with ⟨hi, rfl⟩ | ⟨-, h⟩
  · exact .preempted _ hi
  · split at h
    next r hd => cases h; exact .collects r hd
    next hd =>
      split at h
      next hs => cases h; exact .held _ (waits_txwait (by simpa using hs) hd)
      next => cases h

theorem execReceive_effect {s t : State} (h : execReceive s = .next t) : ExecEffect s .receive t := by
  unfold execReceive at h
  rcases hostStep_next h with ⟨hi, rfl⟩ | ⟨-, h⟩
  · exact .preempted _ hi
  · split at h
    next f q hq => cases h; exact .receives f q hq
    next hq => cases h; exact .held _ (waits_receive hq)

theorem execLastError_effect {s t : State} (h : execLastError s = .next t) : ExecEffect s .lastError t := by
  unfold execLastError at h
  rcases hostStep_next h with ⟨hi, rfl⟩ | ⟨-, h⟩
  · exact .preempted _ hi
  · cases h; exact .readsLatch

theorem execEvent_effect (e : Event) {bits : BitVec 16} {rxd : Byte} {s t : State}
    (h : lineRaise bits rxd s = .next t) : ExecEffect s (Instr.ofEvent e bits rxd) t := by
  obtain ⟨ha, hl, rfl⟩ := lineRaise_eq_next.mp h
  exact .raises e bits rxd ha hl

theorem execRead_effect (r : Reg) {s t : State} (h : readStep r s = .next t) : ExecEffect s (Instr.read r) t := by
  cases h; exact .reads r

theorem execWrite_effect (r : Reg) (v : Word) {s t : State} (h : writeStep r v s = .next t) :
    ExecEffect s (Instr.write r v) t := by
  cases h; exact .writes r v

/-- Every next state of `exec` is one of `ExecEffect`. -/
theorem exec_effect {i : Instr} {s t : State} (h : exec i s = .next t) : ExecEffect s i t := by
  cases i with
  | arm cfg => exact execArm_effect h
  | disarm => exact execDisarm_effect h
  | transmit f => exact execTransmit_effect h
  | txwait => exact execTxwait_effect h
  | receive => exact execReceive_effect h
  | lastError => exact execLastError_effect h
  | rxbr => exact execEvent_effect .rxbr h
  | rxend => exact execEvent_effect .rxend h
  | bre => exact execEvent_effect .bre h
  | sbpe => exact execEvent_effect .sbpe h
  | lbpe => exact execEvent_effect .lbpe h
  | arblst => exact execEvent_effect .arblst h
  | txbr => exact execEvent_effect .txbr h
  | txend => exact execEvent_effect .txend h
  | txerr => exact execEvent_effect .txerr h
  | txacke => exact execEvent_effect .txacke h
  | rxstart => exact execEvent_effect .rxstart h
  | rdCr => exact execRead_effect .cr h
  | wrCr v => exact execWrite_effect .cr v h
  | rdCfgr => exact execRead_effect .cfgr h
  | wrCfgr v => exact execWrite_effect .cfgr v h
  | rdTxdr => exact execRead_effect .txdr h
  | wrTxdr v => exact execWrite_effect .txdr v h
  | rdRxdr => exact execRead_effect .rxdr h
  | wrRxdr v => exact execWrite_effect .rxdr v h
  | rdIsr => exact execRead_effect .isr h
  | wrIsr v => exact execWrite_effect .isr v h
  | rdIer => exact execRead_effect .ier h
  | wrIer v => exact execWrite_effect .ier v h

/-! ## The events -/

/-- The error events of a transmit with their kinds; `43_transmit_events.md` R166 to R168. -/
def txErrors : List (Event × TxErrorKind) := [(.arblst, .arbitrationLost), (.txacke, .ackFailure), (.txerr, .lineError)]

/-- The error events of a receive with their kinds; `42_receive_events.md` R147 to R149. -/
def rxErrors : List (Event × BusErrorKind) :=
  [(.bre, .bitRisingError), (.sbpe, .shortBitPeriodError), (.lbpe, .longBitPeriodError)]

/-- The states that handling an event can lead to from `s`: ignored in a `PV` cell of `60_exceptions.md` R208, else the
cell's transition. -/
inductive HandleEffect (s : State) : Event → State → Prop where
  | ignored (e) (hv : transition s.phase e = false) : HandleEffect s e (violation e s)
  | txFails (e k tx) (hp : s.phase = .transmitting tx) (he : (e, k) ∈ txErrors) : HandleEffect s e (txError k s)
  | rxFails (e k rx) (hp : s.phase = .receiving rx) (he : (e, k) ∈ rxErrors) : HandleEffect s e (rxError k s)
  | rxStarts (hp : s.phase = .idle) : HandleEffect s .rxstart (setPhase (.receiving { buf := [], matched := false }) s)
  | rxByte (rx) (hp : s.phase = .receiving rx) (hc : rx.count < 16) :
      HandleEffect s .rxbr (setPhase (.receiving {
        buf := rx.buf ++ [lowByte (readReg .rxdr s)]
        matched := if rx.count = 0 then accept s.cfgr (dst (lowByte (readReg .rxdr s))) else rx.matched }) s)
  | rxDelivers (rx) (hp : s.phase = .receiving rx) (hc : 1 ≤ rx.count) (hm : rx.matched = true) :
      HandleEffect s .rxend (setPhase .idle (deliver rx.buf s))
  | rxDiscards (rx) (hp : s.phase = .receiving rx) (hc : 1 ≤ rx.count) (hm : rx.matched = false) :
      HandleEffect s .rxend (setPhase .idle (emit .frameIgnored s))
  | txByte (tx) (hp : s.phase = .transmitting tx) (hx : tx.idx < tx.len) :
      HandleEffect s .txbr (setPhase (.transmitting { tx with idx := tx.idx + 1, sub := .byteInFlight })
        (writeReg .txdr (zextByte (tx.frame.getD tx.idx 0#8)) s))
  | txEnds (tx) (hp : s.phase = .transmitting tx) (hx : tx.idx = tx.len) :
      HandleEffect s .txend (endTransmit .ok (emit .txSucceeded s))

/-- A transmit error is ignored in every state but `Transmitting`. -/
theorem transition_txError {e : Event} {k : TxErrorKind} {p : Phase} (he : (e, k) ∈ txErrors)
    (hp : ∀ tx, p ≠ .transmitting tx) : transition p e = false := by
  obtain ⟨rfl, rfl⟩ | ⟨rfl, rfl⟩ | ⟨rfl, rfl⟩ : (e = .arblst ∧ k = .arbitrationLost) ∨
    (e = .txacke ∧ k = .ackFailure) ∨ (e = .txerr ∧ k = .lineError) := by simpa [txErrors] using he
  all_goals cases p with
    | idle => rfl
    | receiving => rfl
    | transmitting tx => exact absurd rfl (hp tx)

/-- A receive error is ignored in every state but `Receiving`. -/
theorem transition_rxError {e : Event} {k : BusErrorKind} {p : Phase} (he : (e, k) ∈ rxErrors)
    (hp : ∀ rx, p ≠ .receiving rx) : transition p e = false := by
  obtain ⟨rfl, rfl⟩ | ⟨rfl, rfl⟩ | ⟨rfl, rfl⟩ : (e = .bre ∧ k = .bitRisingError) ∨
    (e = .sbpe ∧ k = .shortBitPeriodError) ∨ (e = .lbpe ∧ k = .longBitPeriodError) := by simpa [rxErrors] using he
  all_goals cases p with
    | idle => rfl
    | receiving rx => exact absurd rfl (hp rx)
    | transmitting => rfl

theorem handleTxError_effect {e : Event} {k : TxErrorKind} {s : State} (he : (e, k) ∈ txErrors) :
    HandleEffect s e (handleTxError e k s) := by
  unfold handleTxError
  split
  next tx hp => exact .txFails e k tx hp he
  next hp => exact .ignored e (transition_txError he hp)

theorem handleRxError_effect {e : Event} {k : BusErrorKind} {s : State} (he : (e, k) ∈ rxErrors) :
    HandleEffect s e (handleRxError e k s) := by
  unfold handleRxError
  split
  next rx hp => exact .rxFails e k rx hp he
  next hp => exact .ignored e (transition_rxError he hp)

theorem handleRxstart_effect (s : State) : HandleEffect s .rxstart (handle .rxstart s) := by
  cases hT : transition s.phase .rxstart with
  | false => rw [handle_violation hT]; exact .ignored _ hT
  | true =>
    cases hp : s.phase with
    | idle => simpa [handle, handleRxstart, hp] using HandleEffect.rxStarts hp
    | _ => simp [transition, hp] at hT

theorem handleRxbr_effect (s : State) : HandleEffect s .rxbr (handle .rxbr s) := by
  cases hT : transition s.phase .rxbr with
  | false => rw [handle_violation hT]; exact .ignored _ hT
  | true =>
    cases hp : s.phase with
    | receiving rx =>
      have hc : rx.count < 16 := by simpa [transition, hp] using hT
      simpa [handle, handleRxbr, hp, hc] using HandleEffect.rxByte rx hp hc
    | _ => simp [transition, hp] at hT

theorem handleRxend_effect (s : State) : HandleEffect s .rxend (handle .rxend s) := by
  cases hT : transition s.phase .rxend with
  | false => rw [handle_violation hT]; exact .ignored _ hT
  | true =>
    cases hp : s.phase with
    | receiving rx =>
      have hc : 1 ≤ rx.count := by simpa [transition, hp] using hT
      cases hm : rx.matched with
      | true => simpa [handle, handleRxend, hp, hc, hm] using HandleEffect.rxDelivers rx hp hc hm
      | false => simpa [handle, handleRxend, hp, hc, hm] using HandleEffect.rxDiscards rx hp hc hm
    | _ => simp [transition, hp] at hT

theorem handleTxbr_effect (s : State) : HandleEffect s .txbr (handle .txbr s) := by
  cases hT : transition s.phase .txbr with
  | false => rw [handle_violation hT]; exact .ignored _ hT
  | true =>
    cases hp : s.phase with
    | transmitting tx =>
      have hx : tx.idx < tx.len := by simpa [transition, hp] using hT
      simpa [handle, handleTxbr, hp, hx] using HandleEffect.txByte tx hp hx
    | _ => simp [transition, hp] at hT

theorem handleTxend_effect (s : State) : HandleEffect s .txend (handle .txend s) := by
  cases hT : transition s.phase .txend with
  | false => rw [handle_violation hT]; exact .ignored _ hT
  | true =>
    cases hp : s.phase with
    | transmitting tx =>
      have hx : tx.idx = tx.len := by simpa [transition, hp] using hT
      simpa [handle, handleTxend, hp, hx, endTransmit_setSub] using HandleEffect.txEnds tx hp hx
    | _ => simp [transition, hp] at hT

/-- What handling an event does is one of `HandleEffect`. -/
theorem handle_effect (e : Event) (s : State) : HandleEffect s e (handle e s) := by
  cases e with
  | arblst => exact handleTxError_effect (by simp [txErrors])
  | txacke => exact handleTxError_effect (by simp [txErrors])
  | txerr => exact handleTxError_effect (by simp [txErrors])
  | bre => exact handleRxError_effect (by simp [rxErrors])
  | sbpe => exact handleRxError_effect (by simp [rxErrors])
  | lbpe => exact handleRxError_effect (by simp [rxErrors])
  | rxstart => exact handleRxstart_effect s
  | rxbr => exact handleRxbr_effect s
  | rxend => exact handleRxend_effect s
  | txbr => exact handleTxbr_effect s
  | txend => exact handleTxend_effect s

/-! ## The step -/

/-- `s` with other inputs: the turns and what the agents have still to present (log entry 3). -/
def State.withInputs (s : State) (turns : List Agent) (hostIn : List Byte) (lineIn : List (BitVec 24))
    (regIn : List Byte) : State :=
  { s with turns := turns, hostIn := hostIn, lineIn := lineIn, regIn := regIn }

/-- The next states of a step that took its inputs and left `s`: the turn passed, an invocation ran, or an operation
ran, which is no register write unless `raw` says that the turn was one for a register access by itself. -/
inductive TurnEffect (raw : Prop) (s : State) : State → Prop where
  | passes : TurnEffect raw s s
  | invokes (hi : irq s = true) : TurnEffect raw s (seqInvoke s)
  | runs (i t) (hw : raw ∨ ∀ r v, i ≠ Instr.write r v) (he : ExecEffect s i t) : TurnEffect raw s t

theorem seqTurn_effect {raw : Prop} {s t : State} (h : seqTurn s = .next t) : TurnEffect raw s t := by
  unfold seqTurn at h
  split at h
  next hi => cases h; exact .invokes hi
  next => cases h; exact .passes

/-- No command is a register write; `40_register_ops.md` R110. -/
theorem decodeHost_ne_write {bs rest : List Byte} {i : Instr} (h : decodeHost bs = .ok (i, rest)) (r : Reg) (v : Word) :
    i ≠ Instr.write r v := by
  rintro rfl
  have := decodeHost_isHost h
  cases r <;> simp [Instr.write] at this

/-- An event word is the row of some event; `30_encoding.md` R87. -/
theorem decodeEvent_ofEvent {w : BitVec 24} {i : Instr} (h : decodeEvent w = .ok i) :
    ∃ e bits rxd, i = Instr.ofEvent e bits rxd := by
  unfold decodeEvent at h
  dsimp only at h
  repeat' split at h
  all_goals cases h
  exact ⟨_, _, _, rfl⟩

theorem ofEvent_ne_write (e : Event) (bits : BitVec 16) (rxd : Byte) (r : Reg) (v : Word) :
    Instr.ofEvent e bits rxd ≠ Instr.write r v := by
  cases e <;> cases r <;> exact Instr.noConfusion

theorem hostTurn_effect {raw : Prop} {s t : State} (h : hostTurn s = .next t) :
    ∃ hs, TurnEffect raw { s with hostIn := hs } t := by
  rcases hostTurn_next h with rfl | ⟨-, pre, own, i, rest, -, -, hd, -, h⟩
  · exact ⟨_, .passes⟩
  · exact ⟨_, .runs i t (.inr (decodeHost_ne_write hd)) (exec_effect h)⟩

theorem lineTurn_effect {raw : Prop} {s t : State} (h : lineTurn s = .next t) :
    ∃ ls, TurnEffect raw { s with lineIn := ls } t := by
  unfold lineTurn at h
  split at h
  next => cases h; exact ⟨_, .passes⟩
  next w rest hl =>
    split at h
    next => cases h; exact ⟨_, .passes⟩
    next =>
      split at h
      next => cases h
      next i hd =>
        obtain ⟨e, bits, rxd, rfl⟩ := decodeEvent_ofEvent hd
        exact ⟨rest, .runs _ t (.inr (ofEvent_ne_write e bits rxd)) (exec_effect h)⟩

theorem regTurn_effect {raw : Prop} {s t : State} (hraw : raw) (h : regTurn s = .next t) :
    ∃ rs, TurnEffect raw { s with regIn := rs } t := by
  unfold regTurn at h
  split at h
  next => cases h; exact ⟨_, .passes⟩
  next =>
    split at h
    next => cases h
    next i rest hd => exact ⟨rest, .runs i t (.inl hraw) (exec_effect h)⟩

/-- Every next state of a step: inputs are taken, and then the turn has one of its effects; a register write by itself
runs only in a turn for a register access. -/
theorem step_effect {s t : State} (h : step s = .next t) :
    ∃ ts hs ls rs, TurnEffect (s.turns.head? = some .reg) (s.withInputs ts hs ls rs) t := by
  unfold step nextTurn at h
  split at h
  next => exact ⟨_, _, _, _, seqTurn_effect h⟩
  next a rest ht =>
    rw [ht]
    cases a with
    | host => obtain ⟨hs, h⟩ := hostTurn_effect h; exact ⟨rest, hs, _, _, h⟩
    | line => obtain ⟨ls, h⟩ := lineTurn_effect h; exact ⟨rest, _, ls, _, h⟩
    | seq => exact ⟨rest, _, _, _, seqTurn_effect h⟩
    | reg => obtain ⟨rs, h⟩ := regTurn_effect rfl h; exact ⟨rest, _, _, rs, h⟩

end Sys2Proof.Machine
end

section
/-!
PROOF. The two invariants: every part of a step keeps them, and they hold after reset (O49 to O52).
-/
namespace Sys2Proof.Machine
open Sys2Proof.Safety

/-! ## Legal register values -/

/-- The two ways to say that a value has no bit outside a mask. -/
theorem legal_iff {n : Nat} (v m : BitVec n) : v &&& ~~~m = 0#n ↔ v &&& m = v := by
  simp only [BitVec.eq_of_getElem_eq_iff, BitVec.getElem_and, BitVec.getElem_not, BitVec.getElem_zero]
  exact forall₂_congr fun i hi => by cases v[i] <;> cases m[i] <;> simp

theorem masked_legal (v m : Word) : (v &&& m) &&& ~~~m = 0#32 := by simp [BitVec.and_assoc]

/-- Clearing bits of a legal value leaves a legal value. -/
theorem cleared_legal {w m : Word} (v : Word) (h : w &&& ~~~m = 0#32) : (w &&& v) &&& ~~~m = 0#32 := by
  rw [BitVec.and_assoc, BitVec.and_comm v, ← BitVec.and_assoc, h, BitVec.zero_and]

/-- Clearing every bit of the mask of a legal value leaves 0. -/
theorem cleared_all {w m : Word} (h : w &&& ~~~m = 0#32) : w &&& ~~~(m &&& m) = 0#32 := by rwa [BitVec.and_self]

/-- A byte in a register leaves bits 31:8 at 0; `00_scope.md` R10. -/
theorem zextByte_legal (b : Byte) : zextByte b &&& ~~~0x000000FF#32 = 0#32 := by revert b; decide

/-- A legal event word sets only defined bits; `30_encoding.md` R92. -/
theorem legalEvent_legal {bits : BitVec 16} {rxd : Byte} (h : legalEvent bits rxd = true) :
    bits.setWidth 32 &&& ~~~0x00003BBB#32 = 0#32 := by
  have hb : bits &&& ~~~0x3BBB#16 = 0#16 := by
    simp only [legalEvent, Bool.and_eq_true, beq_iff_eq] at h
    exact h.1.2
  rw [legal_iff] at hb ⊢
  calc bits.setWidth 32 &&& 0x00003BBB#32 = (bits &&& 0x3BBB#16).setWidth 32 := by rw [BitVec.setWidth_and]; rfl
    _ = bits.setWidth 32 := by rw [hb]

/-- Raising a legal event word keeps `ISR` legal; `10_state.md` R39, `60_exceptions.md` R201. -/
theorem raised_isr_legal {bits : BitVec 16} {rxd : Byte} {s : State} (hs : s.isr &&& ~~~0x00003BBB#32 = 0#32)
    (hl : legalEvent bits rxd = true) : (raised bits rxd s).isr &&& ~~~0x00003BBB#32 = 0#32 := by
  rw [raised_isr, BitVec.and_or_distrib_right, hs, legalEvent_legal hl, BitVec.or_zero]

/-! ## The invariant of the block -/

section
variable {s : State}

/-- Labels, results and recorded faults are not in the invariant. -/
theorem blockInv_emit (h : BlockInv s) (l : Label) : BlockInv (emit l s) := { h with }

theorem blockInv_answer (h : BlockInv s) (a : Answer) : BlockInv (answer a s) := { h with }

theorem blockInv_record (h : BlockInv s) (f : RecordedFault) : BlockInv (record f s) := { h with }

/-- Neither are the inputs of the step relation, nor the error latch. -/
theorem blockInv_withInputs (h : BlockInv s) (ts hs ls rs) : BlockInv (s.withInputs ts hs ls rs) := { h with }

theorem blockInv_lastError (h : BlockInv s) (l : Option BusErrorKind) : BlockInv { s with lastError := l } := { h with }

/-- A new phase keeps its own bounds, and is a transmit only with an empty slot. -/
theorem blockInv_setPhase (h : BlockInv s) {p : Phase} (hb : phaseBounds p)
    (hd : p.st = .transmitting → s.txDone = none) : BlockInv (setPhase p s) :=
  { h with bounds := hb, slot_empty := hd }

theorem blockInv_setIdle (h : BlockInv s) : BlockInv (setPhase .idle s) := blockInv_setPhase h trivial nofun

/-- The slot may hold an outcome once no transmit is live; `10_state.md` R27. -/
theorem blockInv_endTransmit (h : BlockInv s) (o : TxOutcome) : BlockInv (endTransmit o s) :=
  { h with bounds := trivial, slot_empty := nofun }

theorem blockInv_collect (h : BlockInv s) : BlockInv { s with txDone := none } :=
  { h with slot_empty := fun _ => rfl }

/-- A live transmit has an empty slot; `10_state.md` R27. -/
theorem txDone_of_transmitting (h : BlockInv s) {tx : TxState} (hp : s.phase = .transmitting tx) : s.txDone = none :=
  h.slot_empty (by rw [State.st, hp, Phase.st])

/-- Every register write, `HOST`'s and a raw one, keeps the invariant; `10_state.md` R39, `40_register_ops.md` R111 to
R122. -/
theorem blockInv_writeReg (h : BlockInv s) (r : Reg) (v : Word) : BlockInv (writeReg r v s) := by
  cases r with
  | cr =>
    refine { h with cr_legal := masked_legal v _, ready_armed := fun ha => ?_ }
    have hv : v.getLsbD 0 = false := by simpa [writeReg, armed] using ha
    rw [writeReg, writeCr_txrdy, hv]; rfl
  | cfgr =>
    rw [writeReg]
    cases ha : armed s with
    | true => rw [writeCfgr_armed ha]; exact blockInv_record h _
    | false => rw [writeCfgr_disarmed ha]; exact { h with cfgr_legal := masked_legal v _ }
  | txdr =>
    rw [writeReg]
    cases hr : s.txrdy with
    | true => rw [writeTxdr_ready hr]; exact { h with txdr_byte := zextByte_legal _, ready_armed := fun _ => rfl }
    | false => rw [writeTxdr_notReady hr]; exact blockInv_record h _
  | rxdr => exact h
  | isr => exact { h with isr_legal := cleared_legal _ h.isr_legal }
  | ier => exact { h with ier_legal := masked_legal v _ }

/-- A raise of a legal word while armed keeps the invariant; `60_exceptions.md` R201. -/
theorem blockInv_raised (h : BlockInv s) {bits : BitVec 16} {rxd : Byte} (ha : armed s = true)
    (hl : legalEvent bits rxd = true) : BlockInv (raised bits rxd s) where
  __ := h
  isr_legal := raised_isr_legal h.isr_legal hl
  rxdr_byte := by
    rw [raised_rxdr]; split
    · exact zextByte_legal rxd
    · exact h.rxdr_byte
  ready_armed := fun hn => nomatch ha.symm.trans hn

/-! ### The channel -/

theorem channelAfter_length_le {q : List Frame} (f : Frame) (h : q.length ≤ Config.rxqCap) :
    (channelAfter q f).length ≤ Config.rxqCap := by
  have hcap : 1 ≤ Config.rxqCap := Nat.succ_pos _
  unfold channelAfter; split <;> simp <;> omega

theorem mem_channelAfter {q : List Frame} {f g : Frame} (h : g ∈ channelAfter q f) : g ∈ q ∨ g = f := by
  rcases List.mem_append.mp h with h | h
  · split at h
    · exact .inl (List.mem_of_mem_drop h)
    · exact .inl h
  · exact .inr (List.mem_singleton.mp h)

/-- A delivery keeps the channel within its capacity; `42_receive_events.md` R146. -/
theorem blockInv_deliver (h : BlockInv s) {f : Frame} (hf : 1 ≤ f.length ∧ f.length ≤ 16) :
    BlockInv (deliver f s) := by
  rw [deliver_eq]
  refine { h with channel_bound := channelAfter_length_le f h.channel_bound, channel_frames := fun g hg => ?_ }
  rcases mem_channelAfter hg with hg | rfl
  · exact h.channel_frames g hg
  · exact hf

/-- Taking the oldest frame keeps the rest; `44_host_api.md` R183. -/
theorem blockInv_dequeue (h : BlockInv s) {f : Frame} {q : List Frame} (hq : s.rxq = f :: q) :
    BlockInv { s with rxq := q } where
  __ := h
  channel_bound := by have := h.channel_bound; rw [hq] at this; exact Nat.le_of_succ_le this
  channel_frames := fun g hg => h.channel_frames g (hq ▸ List.mem_cons_of_mem f hg)

/-! ### The events, the commands, the step -/

/-- Handling an event keeps the invariant; `60_exceptions.md` R202. -/
theorem blockInv_handle (e : Event) (s : State) (h : BlockInv s) : BlockInv (handle e s) := by
  have hb := h.bounds
  have he := handle_effect e s
  generalize handle e s = t at he ⊢
  cases he with
  | ignored => exact blockInv_record h _
  | txFails => rw [txError_eq]; exact { h with bounds := trivial, slot_empty := nofun }
  | rxFails _ k => exact blockInv_setIdle (blockInv_emit (blockInv_lastError h (some k)) _)
  | rxStarts => exact blockInv_setPhase h (Nat.zero_le _) nofun
  | rxByte rx hp hc =>
    refine blockInv_setPhase h ?_ nofun
    simpa [phaseBounds, RxState.count] using hc
  | rxDelivers rx hp hc =>
    rw [hp] at hb
    exact blockInv_setIdle (blockInv_deliver h ⟨hc, hb⟩)
  | rxDiscards => exact blockInv_setIdle (blockInv_emit h _)
  | txByte tx hp hx =>
    rw [hp] at hb
    obtain ⟨-, -, hlen, -⟩ := hb
    refine blockInv_setPhase (blockInv_writeReg h .txdr _) ⟨Nat.succ_pos _, hx, hlen, .inr rfl⟩ fun _ => ?_
    rw [writeReg_txDone, txDone_of_transmitting h hp]
  | txEnds => exact blockInv_endTransmit (blockInv_emit h _) _

/-- An invocation keeps the invariant: the clear of `ISR` does, and each event handled does; `60_exceptions.md` R204. -/
theorem blockInv_seqInvoke (h : BlockInv s) : BlockInv (seqInvoke s) :=
  dispatchEvents_keeps blockInv_handle _ (blockInv_writeReg h .isr _)

/-- `ARM` is three register writes; `41_init_teardown.md` R132. -/
theorem blockInv_program (h : BlockInv s) (cfg : Configuration) : BlockInv (program cfg s) :=
  blockInv_writeReg (blockInv_writeReg (blockInv_writeReg h .cfgr _) .ier _) .cr _

/-- `DISARM` is three register writes, and leaves no transmit live; `41_init_teardown.md` R135. -/
theorem blockInv_disarm (h : BlockInv s) : BlockInv (setPhase .idle (abortTransmit (unprogram s))) := by
  have hu : BlockInv (unprogram s) := blockInv_writeReg (blockInv_writeReg (blockInv_writeReg h .cr _) .ier _) .isr _
  rw [abortTransmit_eq]
  exact { hu with bounds := trivial, slot_empty := nofun }

/-- A transmit starts within its bounds and with an empty slot; `43_transmit_events.md` R161. -/
theorem blockInv_startTransmit (h : BlockInv s) {b0 : Byte} {payload : List Byte} (hl : (b0 :: payload).length ≤ 16)
    (hd : s.txDone = none) : BlockInv (startTransmit b0 payload s) := by
  refine blockInv_setPhase (blockInv_writeReg h .txdr _) ⟨Nat.le_refl 1, Nat.succ_pos _, hl, .inl rfl⟩ fun _ => ?_
  rw [writeReg_txDone, hd]

/-- Every operation keeps the invariant, a raw register access too. -/
theorem blockInv_exec {i : Instr} {t : State} (h : BlockInv s) (he : ExecEffect s i t) : BlockInv t := by
  cases he with
  | preempted | held => exact h
  | armRejected | frameInvalid | transmitBusy | reads => exact blockInv_answer h _
  | arms cfg => exact blockInv_answer (blockInv_setIdle (blockInv_program h cfg)) _
  | disarms => exact blockInv_answer (blockInv_disarm h) _
  | transmitStarts b0 payload hl _ _ hd => exact blockInv_answer (blockInv_startTransmit h hl hd) _
  | collects => exact blockInv_answer (blockInv_collect h) _
  | receives f q hq => exact blockInv_answer (blockInv_dequeue h hq) _
  | readsLatch => exact blockInv_answer (blockInv_lastError h none) _
  | raises e bits rxd ha hl => exact blockInv_raised h ha hl
  | writes r v => exact blockInv_writeReg h r v

end

/-! ## The invariant of the agents -/

section
variable {s t : State}

theorem agentInv_withInputs (h : AgentInv s) (ts hs ls rs) : AgentInv (s.withInputs ts hs ls rs) := { h with }

/-- The invariant speaks of `CR`, `ISR`, `IER` and, while disarmed, of the phase only. -/
theorem agentInv_of_armed (ha : armed s = true) (h : AgentInv s) (hcr : t.cr = s.cr) (hier : t.ier = s.ier)
    (hisr : t.isr &&& ~~~0x00003BBB#32 = 0#32) : AgentInv t where
  defined := hisr
  sources := fun _ => by rw [hier, h.sources ha]
  quiet := fun hn => by
    have hs : armed s = false := by rwa [armed, hcr] at hn
    exact nomatch ha.symm.trans hs

/-- What is pending was raised while armed; `41_init_teardown.md` R135. -/
theorem armed_of_irq (h : AgentInv s) (hi : irq s = true) : armed s = true := by
  by_contra hn
  obtain ⟨hisr, -, -⟩ := h.quiet (by simpa using hn)
  simp [irq, hisr] at hi

/-- An invocation reaches neither `CR` nor `IER`, and clears bits of `ISR` only; `60_exceptions.md` R204. -/
theorem agentInv_seqInvoke (h : AgentInv s) (hi : irq s = true) : AgentInv (seqInvoke s) := by
  have hb := dispatchEvents_sameBus (eventsTaken s) (writeIsr (eventsTaken s) s)
  exact agentInv_of_armed (armed_of_irq h hi) h hb.cr hb.ier (hb.isr.symm ▸ cleared_legal _ h.defined)

theorem armed_program (cfg : Configuration) (s : State) : armed (program cfg s) = true := by
  simp [armed, program, writeReg]

theorem armed_unprogram (s : State) : armed (unprogram s) = false := by
  simp [armed, unprogram, writeReg]

/-- `ARM` enables all eleven sources; `41_init_teardown.md` R132. -/
theorem agentInv_arm (h : AgentInv s) (ha : armed s = false) (cfg : Configuration) :
    AgentInv (setPhase .idle (program cfg s)) where
  defined := by simpa [program, writeReg, writeCfgr_disarmed ha] using h.defined
  sources := fun _ => rfl
  quiet := fun hn => nomatch (armed_program cfg s).symm.trans hn

/-- `DISARM` clears all eleven sources and what is pending, and ends what is in progress; `41_init_teardown.md` R135. -/
theorem agentInv_disarm (h : AgentInv s) : AgentInv (setPhase .idle (abortTransmit (unprogram s))) := by
  have hisr : (unprogram s).isr = 0#32 := cleared_all h.defined
  have hdef : (unprogram s).isr &&& ~~~0x00003BBB#32 = 0#32 := by rw [hisr, BitVec.zero_and]
  rw [abortTransmit_eq]
  exact {
    defined := hdef
    sources := fun ha => nomatch (armed_unprogram s).symm.trans ha
    quiet := fun _ => ⟨hisr, rfl, rfl⟩ }

/-- Every operation but a raw register write keeps the invariant. -/
theorem agentInv_exec {i : Instr} (h : AgentInv s) (hw : ∀ r v, i ≠ Instr.write r v) (he : ExecEffect s i t) :
    AgentInv t := by
  cases he with
  | preempted | held => exact h
  | armRejected | frameInvalid | transmitBusy | collects | receives | readsLatch | reads => exact { h with }
  | arms cfg ha => exact { agentInv_arm h ha cfg with }
  | disarms => exact { agentInv_disarm h with }
  | transmitStarts b0 _ _ ha =>
    have hb := writeTxdr_sameBus (zextByte b0) s
    exact agentInv_of_armed ha h hb.cr hb.ier (hb.isr.symm ▸ h.defined)
  | raises e bits rxd ha hl => exact agentInv_of_armed ha h rfl rfl (raised_isr_legal h.defined hl)
  | writes r v => exact absurd rfl (hw r v)

end

end Sys2Proof.Machine

open Sys2Proof Sys2Proof.Machine Sys2Proof.Safety

/-- Settles O49: a step takes inputs, and then passes, invokes the sequencer or runs an operation, each of which keeps
the invariant. -/
theorem stepKeepsInv : Obligations.StepKeepsInv := by
  intro s t h hstep
  obtain ⟨ts, hs, ls, rs, heff⟩ := step_effect hstep
  have h := blockInv_withInputs h ts hs ls rs
  cases heff with
  | passes => exact h
  | invokes => exact blockInv_seqInvoke h
  | runs i _ _ he => exact blockInv_exec h he

/-- Settles O51: the same for the agents' invariant, as no turn of an agent runs a register write by itself. -/
theorem agentStepKeepsAgentInv : Obligations.AgentStepKeepsAgentInv := by
  intro s t h hreg hstep
  obtain ⟨ts, hs, ls, rs, heff⟩ := step_effect hstep
  have h := agentInv_withInputs h ts hs ls rs
  cases heff with
  | passes => exact h
  | invokes hi => exact agentInv_seqInvoke h hi
  | runs i _ hw he => exact agentInv_exec h (hw.resolve_left hreg) he

/-- Settles O50: every register is 0 and every structure empty; `10_state.md` R47. -/
theorem resetHasInv : Obligations.ResetHasInv where
  cr_legal := rfl
  cfgr_legal := rfl
  isr_legal := rfl
  ier_legal := rfl
  txdr_byte := rfl
  rxdr_byte := rfl
  ready_armed := fun _ => rfl
  bounds := trivial
  slot_empty := nofun
  channel_bound := Nat.zero_le _
  channel_frames := nofun

/-- Settles O52: nothing is pending, enabled or in progress; `10_state.md` R47. -/
theorem resetHasAgentInv : Obligations.ResetHasAgentInv where
  defined := rfl
  sources := nofun
  quiet := fun _ => ⟨rfl, rfl, rfl⟩

/-- Settles O1: the fields of `State.reset`, one by one. -/
theorem resetState : Obligations.ResetState :=
  ⟨rfl, rfl, rfl, rfl, rfl, rfl, rfl, rfl, rfl, rfl, rfl, rfl, rfl, rfl⟩
end

section
/-!
PROOF. The packing of a Configuration into `CFGR` and the acceptance predicate on it (O22, O23), and which operations
and events write the hand-off structures (O54).
-/
namespace Sys2Proof.Machine
open Sys2Proof.Safety

/-! ## The packing of a Configuration -/

/-- A one-bit field placed at bit `k`. -/
theorem flag_getLsbD {n : Nat} (b : Bool) (k : Nat) {i : Nat} (hi : i < n) :
    ((BitVec.ofBool b).setWidth n <<< k).getLsbD i = (decide (i = k) && b) := by
  have hik : (!decide (i < k) && decide (i - k = 0)) = decide (i = k) := by
    rw [← decide_not, ← Bool.decide_and]; exact decide_eq_decide.mpr (by omega)
  simp [hi, ← hik, Bool.and_assoc]

/-- A bit of `encode(cfg)`; `10_state.md` R45. -/
theorem encodeCfg_getLsbD (cfg : Configuration) {i : Nat} (hi : i < 32) :
    (encodeCfg cfg).getLsbD i =
      ((decide (i = 31) && cfg.listen) || (decide (16 ≤ i) && (oarOf cfg).getLsbD (i - 16)) ||
        (decide (i = 3) && decide (cfg.tol = .extended)) || cfg.sft.getLsbD i) := by
  have hoar : ((oarOf cfg).setWidth 32 <<< 16).getLsbD i = (decide (16 ≤ i) && (oarOf cfg).getLsbD (i - 16)) := by
    simp [hi, ← decide_not]
  simp only [encodeCfg, BitVec.getLsbD_or, flag_getLsbD _ _ hi, hoar, beq_eq_decide]
  simp [hi]

/-- A bit of the address bits; `10_state.md` R45. -/
theorem oarOf_getLsbD (cfg : Configuration) {a : Nat} (ha : a ≤ 14) :
    (oarOf cfg).getLsbD a = (cfg.extra.getLsbD a || decide (cfg.own = some (BitVec.ofNat 8 a))) := by
  have hextra : (cfg.extra.setWidth 15).getLsbD a = cfg.extra.getLsbD a := by
    simp [show a < 15 by omega]
  rw [oarOf, BitVec.getLsbD_or, hextra]
  cases cfg.own with
  | none => simp
  | some b =>
    have hb : b = BitVec.ofNat 8 a ↔ a = b.toNat := by
      rw [← BitVec.toNat_inj, BitVec.toNat_ofNat, Nat.mod_eq_of_lt (by omega), eq_comm]
    by_cases hle : b.toNat ≤ 14
    · have hbit : (1#15 <<< b.toNat).getLsbD a = decide (a = b.toNat) :=
        (flag_getLsbD (n := 15) true b.toNat (by omega)).trans (Bool.and_true _)
      simp only [hle, if_true, hbit, Option.some.injEq, hb]
    · have hne : a ≠ b.toNat := by omega
      simp [hle, hb, hne]

/-- The bit of an address in `encode(cfg)`; `10_state.md` R45. -/
theorem encodeCfg_address (cfg : Configuration) {a : Nat} (ha : a ≤ 14) :
    (encodeCfg cfg).getLsbD (16 + a) = (cfg.extra.getLsbD a || decide (cfg.own = some (BitVec.ofNat 8 a))) := by
  rw [encodeCfg_getLsbD cfg (by omega), ← oarOf_getLsbD cfg ha]
  simp [show 16 + a ≠ 31 by omega, show 16 + a ≠ 3 by omega, BitVec.getLsbD_of_ge cfg.sft (16 + a) (by omega)]

theorem encodeCfg_listen (cfg : Configuration) : (encodeCfg cfg).getLsbD 31 = cfg.listen := by
  rw [encodeCfg_getLsbD cfg (by omega)]; simp

theorem encodeCfg_tolerance (cfg : Configuration) : (encodeCfg cfg).getLsbD 3 = decide (cfg.tol = .extended) := by
  rw [encodeCfg_getLsbD cfg (by omega)]; simp

theorem encodeCfg_sft (cfg : Configuration) : (encodeCfg cfg).extractLsb' 0 3 = cfg.sft := by
  apply BitVec.eq_of_getLsbD_eq
  intro i hi
  rw [BitVec.getLsbD_extractLsb', Nat.zero_add, encodeCfg_getLsbD cfg (by omega)]
  simp [hi, show i ≠ 31 by omega, show ¬ 16 ≤ i by omega, show i ≠ 3 by omega]

theorem encodeCfg_reserved (cfg : Configuration) : (encodeCfg cfg).extractLsb' 4 12 = 0#12 := by
  apply BitVec.eq_of_getLsbD_eq
  intro i hi
  rw [BitVec.getLsbD_extractLsb', encodeCfg_getLsbD cfg (by omega)]
  simp [show 4 + i ≠ 31 by omega, show ¬ 16 ≤ 4 + i by omega, show 4 + i ≠ 3 by omega,
    BitVec.getLsbD_of_ge cfg.sft (4 + i) (by omega)]

/-! ## The writers of the hand-off structures -/

/-- Each operation changes only the hand-off structure it is for; `10_state.md` R26 to R28. -/
theorem exec_handOff {i : Instr} {s t : State} (h : ExecEffect s i t) :
    (t.rxq ≠ s.rxq → i = .receive) ∧ (t.txDone ≠ s.txDone → i = .txwait ∨ i = .disarm) ∧
    (t.lastError ≠ s.lastError → i = .lastError) := by
  cases h with
  | preempted | held => simp
  | armRejected | frameInvalid | transmitBusy | reads => simp
  | collects | receives | readsLatch => simp
  | raises => simp
  | writes => simp
  | arms => simp [program]
  | disarms => simp [unprogram]
  | transmitStarts => simp [startTransmit]

/-- Handling an event changes a hand-off structure only at the end of the attempt in progress; `10_state.md` R26 to
R28. -/
theorem handle_handOff {e : Event} {s t : State} (h : HandleEffect s e t) :
    (t.rxq ≠ s.rxq → s.st = .receiving ∧ e = .rxend) ∧
    (t.txDone ≠ s.txDone → s.st = .transmitting ∧ e ∈ [Event.txend, .arblst, .txacke, .txerr]) ∧
    (t.lastError ≠ s.lastError →
      (s.st = .transmitting ∧ e ∈ [Event.arblst, .txacke, .txerr]) ∨
      (s.st = .receiving ∧ e ∈ [Event.bre, .sbpe, .lbpe])) := by
  cases h with
  | ignored => simp
  | rxStarts | rxByte | rxDiscards | txByte => simp
  | txFails e k tx hp he =>
    have hs : s.st = .transmitting := by rw [State.st, hp, Phase.st]
    have hmem : e ∈ [Event.arblst, .txacke, .txerr] := List.mem_map_of_mem (f := Prod.fst) he
    exact ⟨by simp [txError_eq], fun _ => ⟨hs, List.mem_cons_of_mem _ hmem⟩, fun _ => .inl ⟨hs, hmem⟩⟩
  | rxFails e k rx hp he =>
    have hs : s.st = .receiving := by rw [State.st, hp, Phase.st]
    have hmem : e ∈ [Event.bre, .sbpe, .lbpe] := List.mem_map_of_mem (f := Prod.fst) he
    exact ⟨by simp, by simp, fun _ => .inr ⟨hs, hmem⟩⟩
  | rxDelivers rx hp =>
    have hs : s.st = .receiving := by rw [State.st, hp, Phase.st]
    exact ⟨fun _ => ⟨hs, rfl⟩, by simp [deliver_eq], by simp [deliver_eq]⟩
  | txEnds tx hp =>
    have hs : s.st = .transmitting := by rw [State.st, hp, Phase.st]
    exact ⟨by simp, fun _ => ⟨hs, List.mem_cons_self ..⟩, by simp⟩

end Sys2Proof.Machine

open Sys2Proof Sys2Proof.Machine

/-- Settles O22: field by field, each a bit or a run of bits of `encode(cfg)`. -/
theorem configurationEncoding : Obligations.ConfigurationEncoding := fun cfg =>
  ⟨encodeCfg_listen cfg, encodeCfg_sft cfg, encodeCfg_tolerance cfg, encodeCfg_reserved cfg,
    fun _ ha => encodeCfg_address cfg ha⟩

/-- Settles O23: broadcast 15 is always accepted and has no address bit; any other destination is at most 14, and its
bit is set for an additional address and for the own one. -/
theorem acceptanceAfterProgramming : Obligations.AcceptanceAfterProgramming := by
  intro cfg d
  have hown : BitVec.ofNat 8 d.toNat = d.setWidth 8 := BitVec.ofNat_toNat ..
  unfold accept
  by_cases hd : d = 15#4
  · simp [hd]
  · have hle : d.toNat ≤ 14 := by
      have : d.toNat ≠ 15 := fun h => hd (BitVec.eq_of_toNat_eq h)
      omega
    rw [encodeCfg_listen, encodeCfg_address cfg hle, hown]
    simp [hd, hle, beq_eq_decide, Bool.or_assoc]

/-- Settles O54: the two case splits, over what an operation and what handling an event can do. -/
theorem handOffWriters : Obligations.HandOffWriters :=
  ⟨fun _ _ _ h => exec_handOff (exec_effect h), fun e s => handle_handOff (handle_effect e s)⟩
end

section
/-!
PROOF. What a turn runs when its agent presents an operation that decodes (O2), and the width and offsets of register
accesses (O13).
-/
namespace Sys2Proof.Machine

/-! ## The turn of an agent -/

/-- A step with a turn scheduled uses it up and is that agent's turn; `20_memory.md` R67. -/
theorem step_agentTurn {s : State} {a : Agent} {turns : List Agent} (ht : s.turns = a :: turns) :
    step s = agentTurn a { s with turns := turns } := by
  rw [step, nextTurn, ht]

/-- A `LINE` turn of an armed block takes one word and runs the row it decodes to; `60_exceptions.md` R201. -/
theorem lineTurn_ready {s : State} {w : BitVec 24} {words : List (BitVec 24)} {i : Instr} (ha : armed s = true)
    (hw : s.lineIn = w :: words) (hd : decodeEvent w = .ok i) :
    lineTurn s = exec i { s with lineIn := words } := by
  have hl : (!lineEnabled s) = false := by rw [lineEnabled, ha]; rfl
  simp only [lineTurn, hw, hd, hl, Bool.false_eq_true, if_false]

/-- A turn for a register access takes the bytes of the access that decodes and runs it; `40_register_ops.md` R110. -/
theorem regTurn_ready {s : State} {rest : List Byte} {i : Instr} (hd : decodeAccess s.regIn = .ok (i, rest)) :
    regTurn s = exec i { s with regIn := rest } := by
  have hne : s.regIn.isEmpty = false := by
    cases hr : s.regIn with
    | nil => rw [hr] at hd; cases hd
    | cons => rfl
  simp only [regTurn, hne, Bool.false_eq_true, if_false, hd]

/-! ## The register space -/

theorem offset_mem (r : Reg) : r.offset ∈ [0x00, 0x04, 0x08, 0x0C, 0x10, 0x14] := by
  cases r <;> decide

/-- There is no register but at the six offsets; `20_memory.md` R64. -/
theorem ofOffset_eq_none {off : Nat} (h : off ∉ [0x00, 0x04, 0x08, 0x0C, 0x10, 0x14]) : Reg.ofOffset off = none := by
  cases ho : Reg.ofOffset off with
  | none => rfl
  | some r => exact absurd (offset_ofOffset ho ▸ offset_mem r) h

theorem memRead_offset (r : Reg) (s : State) : memRead r.offset 4 s = .ok (readReg r s) := by
  rw [memRead, ofOffset_offset]; rfl

theorem memWrite_offset (r : Reg) (v : Word) (s : State) : memWrite r.offset 4 v s = .ok (writeReg r v s) := by
  rw [memWrite, ofOffset_offset]; rfl

/-- Another width than 4, or an offset with no register, is refused for a read and for a write; `20_memory.md` R64. -/
theorem access_refused {off width : Nat} (h : width ≠ 4 ∨ Reg.ofOffset off = none) (s : State) :
    memRead off width s = .error .badRegisterAccess ∧
      ∀ v, memWrite off width v s = .error .badRegisterAccess := by
  cases ho : Reg.ofOffset off with
  | none => simp [memRead, memWrite, ho]
  | some r =>
    have hw : width ≠ 4 := h.resolve_right (by simp [ho])
    simp [memRead, memWrite, ho, hw]

end Sys2Proof.Machine

open Sys2Proof Sys2Proof.Machine

/-- Settles O2: a step is the turn of the agent scheduled, and the three agents' turns run what decodes. -/
theorem stepRunsTheDecodedOperation : Obligations.StepRunsTheDecodedOperation := by
  refine ⟨?host, ?line, ?reg⟩
  case host =>
    intro s i turns waiting own rest ht hirq hin hwait hd hw
    rw [step_agentTurn ht]
    exact hostTurn_ready hirq hin hwait hd hw
  case line =>
    intro s i turns w words ht hin hd ha
    rw [step_agentTurn ht]
    exact lineTurn_ready ha hin hd
  case reg =>
    intro s i turns rest ht hd
    rw [step_agentTurn ht]
    exact regTurn_ready hd

/-- Settles O13: the six offsets name the six registers, and any other width or offset is refused. -/
theorem registerSpaceAccess : Obligations.RegisterSpaceAccess :=
  ⟨memRead_offset, memWrite_offset, fun _ _ s h => (access_refused (h.imp_right ofOffset_eq_none) s).1,
    fun _ _ v s h => (access_refused (h.imp_right ofOffset_eq_none) s).2 v, rfl⟩
end

section
/-!
PROOF. The encoder and the three decoders are inverse to each other (O9, O10), what is no operation is refused by name
(O11), and sample words (O8).
-/
namespace Sys2Proof
open Sys2Proof.Machine

/-! ## The encoder and `wellFormed`, per family of rows -/

@[simp] theorem encode_ofEvent (e : Event) (bits : BitVec 16) (rxd : Byte) :
    encode (Instr.ofEvent e bits rxd) = .line (encodeEvent bits rxd) := by cases e <;> rfl

@[simp] theorem encode_read (r : Reg) : encode (Instr.read r) = .reg (encodeRead r) := by cases r <;> rfl

@[simp] theorem encode_write (r : Reg) (v : Word) : encode (Instr.write r v) = .reg (encodeWrite r v) := by
  cases r <;> rfl

@[simp] theorem wellFormed_ofEvent (e : Event) (bits : BitVec 16) (rxd : Byte) :
    (Instr.ofEvent e bits rxd).wellFormed = wellFormedEvent e bits rxd := by cases e <;> rfl

@[simp] theorem wellFormed_read (r : Reg) : (Instr.read r).wellFormed = true := by cases r <;> rfl

@[simp] theorem wellFormed_write (r : Reg) (v : Word) : (Instr.write r v).wellFormed = true := by cases r <;> rfl

/-! ## Format `H` -/

/-- The own address and its byte: `FF` is unassigned; `30_encoding.md` R82. -/
theorem own_of_byte {own : Option Byte} (h : own ≠ some 0xFF#8) :
    (if own.getD 0xFF#8 = 0xFF#8 then none else some (own.getD 0xFF#8)) = own := by
  cases own with
  | none => rfl
  | some a => exact if_neg fun ha => h (congrArg some ha)

theorem byte_of_own (oa : Byte) : (if oa = 0xFF#8 then none else some oa).getD 0xFF#8 = oa := by
  split
  next h => exact h.symm
  next => rfl

theorem tolerance_of_bit (t : Tolerance) : (if t == .extended then Tolerance.extended else .standard) = t := by
  cases t <;> rfl

/-- `ARM` reads back the Configuration it was made of; `30_encoding.md` R82. -/
theorem decodeHost_encodeArm {cfg : Configuration} (h : (Instr.arm cfg).wellFormed = true) (rest : List Byte) :
    decodeHost (encodeArm cfg ++ rest) = .ok (.arm cfg, rest) := by
  obtain ⟨hres, hsft, htol, hlisten⟩ := encodeFl_fields cfg
  have hown : cfg.own ≠ some 0xFF#8 := by simpa [Instr.wellFormed] using h
  change decodeArm
    (cfg.own.getD 0xFF#8 :: cfg.extra.extractLsb' 8 8 :: cfg.extra.extractLsb' 0 8 :: encodeFl cfg :: rest) = _
  rw [decodeArm, if_pos hres, own_of_byte hown, extra_of_bytes, htol, tolerance_of_bit, hsft, hlisten]

/-- What `ARM` accepts is its Configuration's encoding; `30_encoding.md` R82. -/
theorem encode_of_decodeArm {bs rest : List Byte} {i : Instr} (h : decodeArm bs = .ok (i, rest)) :
    i.wellFormed = true ∧ ∃ own, encode i = .host own ∧ 0x01#8 :: bs = own ++ rest := by
  unfold decodeArm at h
  split at h
  next oa eh el fl rest =>
    split at h
    next hres =>
      cases h
      obtain ⟨heh, hel⟩ := bytes_of_extra eh el
      refine ⟨by simp [Instr.wellFormed], _, rfl, ?_⟩
      simp only [encodeArm, encodeFl_of_fields _ _ fl hres, byte_of_own, heh, hel, List.cons_append, List.nil_append]
    next => cases h
  next => cases h

/-- `TRANSMIT` reads back its frame; `30_encoding.md` R83. -/
theorem decodeHost_encodeTransmit {f : Frame} (h : f.length ≤ 255) (rest : List Byte) :
    decodeHost (encodeTransmit f ++ rest) = .ok (.transmit f, rest) := by
  have hlen : (BitVec.ofNat 8 f.length).toNat = f.length := Nat.mod_eq_of_lt (by omega)
  change decodeTransmit (BitVec.ofNat 8 f.length :: (f ++ rest)) = _
  rw [decodeTransmit, hlen, if_neg (by simp), List.take_left, List.drop_left]

/-- What `TRANSMIT` accepts is its frame's encoding; `30_encoding.md` R83. -/
theorem encode_of_decodeTransmit {bs rest : List Byte} {i : Instr} (h : decodeTransmit bs = .ok (i, rest)) :
    i.wellFormed = true ∧ ∃ own, encode i = .host own ∧ 0x03#8 :: bs = own ++ rest := by
  cases bs with
  | nil => cases h
  | cons len bs =>
    rw [decodeTransmit] at h
    split at h
    next => cases h
    next hlen =>
      cases h
      have hf : (bs.take len.toNat).length = len.toNat := List.length_take_of_le (Nat.le_of_not_lt hlen)
      refine ⟨?_, _, rfl, ?_⟩
      · have := len.isLt
        simp only [Instr.wellFormed, hf, decide_eq_true_eq]; omega
      · simp only [encodeTransmit, hf, BitVec.ofNat_toNat, BitVec.setWidth_eq, List.cons_append, List.take_append_drop]

/-- What the `H` decoder accepts is a command's encoding, opcode by opcode; `30_encoding.md` R84. -/
theorem encode_of_decodeHost {bs rest : List Byte} {i : Instr} (h : decodeHost bs = .ok (i, rest)) :
    i.wellFormed = true ∧ ∃ own, encode i = .host own ∧ bs = own ++ rest := by
  unfold decodeHost at h
  split at h
  next => cases h
  next op bs =>
    split_ifs at h with h1 h2 h3 h4 h5 h6
    · exact h1 ▸ encode_of_decodeArm h
    · cases h; exact ⟨rfl, _, rfl, h2 ▸ rfl⟩
    · exact h3 ▸ encode_of_decodeTransmit h
    · cases h; exact ⟨rfl, _, rfl, h4 ▸ rfl⟩
    · cases h; exact ⟨rfl, _, rfl, h5 ▸ rfl⟩
    · cases h; exact ⟨rfl, _, rfl, h6 ▸ rfl⟩

/-- A first byte that is no opcode; `30_encoding.md` R92. -/
theorem decodeHost_badOpcode {op : Byte} (h : op.toNat < 1 ∨ 6 < op.toNat) (rest : List Byte) :
    decodeHost (op :: rest) = .error .illegalCommand := by
  have hne : ∀ k : Byte, 1 ≤ k.toNat ∧ k.toNat ≤ 6 → op ≠ k := by rintro k ⟨h1, h2⟩ rfl; omega
  rw [decodeHost, if_neg (hne _ (by decide)), if_neg (hne _ (by decide)), if_neg (hne _ (by decide)),
    if_neg (hne _ (by decide)), if_neg (hne _ (by decide)), if_neg (hne _ (by decide))]

/-- `ARM` with an operand missing; `30_encoding.md` R92. -/
theorem decodeArm_short : ∀ {operands : List Byte}, operands.length < 4 → decodeArm operands = .error .illegalCommand
  | [], _ => rfl
  | [_], _ => rfl
  | [_, _], _ => rfl
  | [_, _, _], _ => rfl
  | _ :: _ :: _ :: _ :: _, h => absurd h (by simp)

/-! ## Format `E` -/

/-- What makes an event word legal; `30_encoding.md` R92. -/
theorem legalEvent_iff {bits : BitVec 16} {rxd : Byte} :
    legalEvent bits rxd = true ↔
      bits ≠ 0#16 ∧ bits &&& ~~~0x3BBB#16 = 0#16 ∧ (rxd = 0#8 ∨ bits.getLsbD 0 = true) := by
  simp only [legalEvent, Bool.and_eq_true, Bool.or_eq_true, bne_iff_ne, beq_iff_eq, and_assoc]
  rfl

/-- A legal event word has no reserved bit; `30_encoding.md` R92. -/
theorem legalEvent_reserved {bits : BitVec 16} {rxd : Byte} (h : legalEvent bits rxd = true) {n : Nat}
    (hn : (0x3BBB#16).getLsbD n = false) : bits.getLsbD n = false := by
  obtain ⟨-, hmask, -⟩ := legalEvent_iff.mp h
  rw [← (legal_iff bits _).mp hmask, BitVec.getLsbD_and, hn, Bool.and_false]

/-- An event word decodes to the row of its highest-priority event, if it is legal, and to nothing else;
`30_encoding.md` R87. -/
theorem decodeEvent_eq_ok_iff {w : BitVec 24} {i : Instr} :
    decodeEvent w = .ok i ↔ ∃ e, wellFormedEvent e (w.setWidth 16) (w.extractLsb' 16 8) = true ∧
      i = Instr.ofEvent e (w.setWidth 16) (w.extractLsb' 16 8) := by
  simp only [decodeEvent, wellFormedEvent, Bool.and_eq_true, beq_iff_eq]
  cases hl : legalEvent (w.setWidth 16) (w.extractLsb' 16 8) with
  | false => simp
  | true =>
    obtain ⟨e, he⟩ := firstEvent_of_legal hl
    simp [he, eq_comm]

/-- A word that is not legal is refused; `30_encoding.md` R92. -/
theorem decodeEvent_illegal {w : BitVec 24} (h : ¬ legalEvent (w.setWidth 16) (w.extractLsb' 16 8) = true) :
    decodeEvent w = .error .illegalEvent := if_neg h

/-- The word of a well-formed `E` row decodes to the row; `30_encoding.md` R86, R87. -/
theorem decodeEvent_encodeEvent {e : Event} {bits : BitVec 16} {rxd : Byte} (h : wellFormedEvent e bits rxd = true) :
    decodeEvent (encodeEvent bits rxd) = .ok (Instr.ofEvent e bits rxd) := by
  obtain ⟨hbits, hrxd⟩ := eventWord_fields rxd bits
  rw [decodeEvent_eq_ok_iff, encodeEvent, hbits, hrxd]
  exact ⟨e, h, rfl⟩

/-- What the `E` decoder accepts is the word of the row; `30_encoding.md` R86, R87. -/
theorem encode_of_decodeEvent {w : BitVec 24} {i : Instr} (h : decodeEvent w = .ok i) :
    i.wellFormed = true ∧ encode i = .line w := by
  obtain ⟨e, hw, rfl⟩ := decodeEvent_eq_ok_iff.mp h
  exact ⟨by rw [wellFormed_ofEvent, hw], by rw [encode_ofEvent, encodeEvent, eventWord_of_fields]⟩

/-! ## Format `R` -/

theorem decodeAccess_encodeRead (r : Reg) (rest : List Byte) :
    decodeAccess (encodeRead r ++ rest) = .ok (Instr.read r, rest) := by cases r <;> rfl

/-- A write reads back its register and its data; `30_encoding.md` R88. -/
theorem decodeAccess_encodeWrite (r : Reg) (v : Word) (rest : List Byte) :
    decodeAccess (encodeWrite r v ++ rest) = .ok (Instr.write r v, rest) := by
  have hbytes : decodeAccess (encodeWrite r v ++ rest) = .ok (Instr.write r
      (v.extractLsb' 24 8 ++ v.extractLsb' 16 8 ++ v.extractLsb' 8 8 ++ v.extractLsb' 0 8), rest) := by
    cases r <;> rfl
  rw [hbytes, data_of_bytes]

/-- What a write accepts after its header is its data; `30_encoding.md` R88. -/
theorem encode_of_decodeWrite {r : Reg} {bs rest : List Byte} {i : Instr} (h : decodeWrite r bs = .ok (i, rest)) :
    ∃ v, i = Instr.write r v ∧ (1#1 ++ 0#2 ++ BitVec.ofNat 5 r.offset : Byte) :: bs = encodeWrite r v ++ rest := by
  unfold decodeWrite at h
  split at h
  next b3 b2 b1 b0 rest =>
    cases h
    obtain ⟨h3, h2, h1, h0⟩ := bytes_of_data b3 b2 b1 b0
    exact ⟨_, rfl, by rw [encodeWrite, h3, h2, h1, h0]; rfl⟩
  next => cases h

/-- What the `R` decoder accepts is the encoding of the access its header names; `30_encoding.md` R88, R89. -/
theorem encode_of_decodeAccess {bs rest : List Byte} {i : Instr} (h : decodeAccess bs = .ok (i, rest)) :
    i.wellFormed = true ∧ ∃ own, encode i = .reg own ∧ bs = own ++ rest := by
  unfold decodeAccess at h
  split at h
  next => cases h
  next hdr bs =>
    split at h
    next hres =>
      have hhdr := header_of_fields hdr hres
      split at h
      next => cases h
      next r hr =>
        rw [← offset_ofOffset hr] at hhdr
        split at h
        next hw =>
          obtain ⟨v, rfl, hbytes⟩ := encode_of_decodeWrite h
          rw [hw] at hhdr
          exact ⟨wellFormed_write r v, _, encode_write r v, hhdr ▸ hbytes⟩
        next hw =>
          cases h
          rw [Bool.eq_false_of_not_eq_true hw] at hhdr
          exact ⟨wellFormed_read r, _, encode_read r, hhdr ▸ rfl⟩
    next => cases h

/-- A header with a reserved bit, or with no register at its offset, is refused; `30_encoding.md` R92. -/
theorem decodeAccess_badHeader {hdr : Byte}
    (h : hdr.extractLsb' 5 2 ≠ 0#2 ∨ Reg.ofOffset (hdr.extractLsb' 0 5).toNat = none) (rest : List Byte) :
    decodeAccess (hdr :: rest) = .error .badRegisterAccess := by
  rw [decodeAccess]
  split
  next hres => rw [h.resolve_left (absurd hres)]
  next => rfl

/-! ## All rows -/

/-- What is presented is read as `i`, whatever bytes stand after it in a byte string; `30_encoding.md` R80, R94. -/
def DecodesTo (i : Instr) : Wire → Prop
  | .host bs => ∀ rest, decodeHost (bs ++ rest) = .ok (i, rest)
  | .line w => decodeEvent w = .ok i
  | .reg bs => ∀ rest, decodeAccess (bs ++ rest) = .ok (i, rest)

/-- With nothing after it, it decodes whole. -/
theorem decode_of_decodesTo {i : Instr} {w : Wire} (h : DecodesTo i w) : decode w = .ok (i, []) := by
  cases w with
  | host bs => exact (congrArg decodeHost (List.append_nil bs)).symm.trans (h [])
  | line w => exact congrArg (Except.map fun i => (i, [])) h
  | reg bs => exact (congrArg decodeAccess (List.append_nil bs)).symm.trans (h [])

/-- The encoding of every well-formed operation is read as the operation. -/
theorem decodesTo_encode {i : Instr} (h : i.wellFormed = true) : DecodesTo i (encode i) := by
  cases i with
  | arm cfg => exact decodeHost_encodeArm h
  | transmit f => exact decodeHost_encodeTransmit (of_decide_eq_true h)
  | disarm | txwait | receive | lastError => exact fun _ => rfl
  | rxbr | rxend | bre | sbpe | lbpe | arblst | txbr | txend | txerr | txacke | rxstart =>
    exact decodeEvent_encodeEvent h
  | rdCr | rdCfgr | rdTxdr | rdRxdr | rdIsr | rdIer => exact decodeAccess_encodeRead _
  | wrCr v | wrCfgr v | wrTxdr v | wrRxdr v | wrIsr v | wrIer v => exact decodeAccess_encodeWrite _ v

end Sys2Proof

open Sys2Proof Sys2Proof.Machine

/-- Settles O9: each row's encoding is read as the row, at the head of any byte string. -/
theorem decodeOfEncode : Obligations.DecodeOfEncode := by
  refine ⟨fun i h => decode_of_decodesTo (decodesTo_encode h), fun i bs rest h he => ?_, fun i bs rest h he => ?_⟩
  all_goals
    have hd := decodesTo_encode h
    rw [he] at hd
    exact hd rest

/-- Settles O10: decoder by decoder. -/
theorem encodeOfDecode : Obligations.EncodeOfDecode :=
  ⟨fun _ _ _ => encode_of_decodeHost, fun _ _ => encode_of_decodeEvent, fun _ _ _ => encode_of_decodeAccess⟩

/-- Settles O11: an event word of any of the seven kinds is not legal, and the other refusals are one check each. -/
theorem illegalEncodingsAreRefused : Obligations.IllegalEncodingsAreRefused := by
  refine ⟨fun _ rest h => decodeHost_badOpcode h rest, fun _ _ _ _ _ h => if_neg h, fun _ h => decodeArm_short h,
    fun _ _ h => if_pos h, fun w h => decodeEvent_illegal fun hl => ?event,
    fun hdr rest h => decodeAccess_badHeader ?header rest⟩
  case event =>
    obtain ⟨hne, -, hrxd⟩ := legalEvent_iff.mp hl
    have hbit : ∀ n < 16, (w.setWidth 16).getLsbD n = w.getLsbD n := fun n hn => by simp [hn]
    have hres : ∀ n < 16, (0x3BBB#16).getLsbD n = false → ¬ w.getLsbD n = true := fun n hn hm => by
      rw [← hbit n hn, legalEvent_reserved hl hm]; decide
    rcases h with h | h | h | h | h | ⟨hx, h⟩ | h
    · exact hres 2 (by decide) rfl h
    · exact hres 6 (by decide) rfl h
    · exact hres 10 (by decide) rfl h
    · exact hres 14 (by decide) rfl h
    · exact hres 15 (by decide) rfl h
    · rw [hbit 0 (by decide), h] at hrxd
      exact hrxd.elim hx Bool.false_ne_true
    · exact hne ((setWidth_low (n := 8) (m := 16) w).trans h)
  case header =>
    have hoff : ∀ o : BitVec 5, o ∉ [0x00#5, 0x04#5, 0x08#5, 0x0C#5, 0x10#5, 0x14#5] →
        o.toNat ∉ [0x00, 0x04, 0x08, 0x0C, 0x10, 0x14] := by decide
    exact h.imp_right fun ho => ofOffset_eq_none (hoff _ ho)

/-- Settles O8: each word is decoded. -/
theorem sampleWordsDecode : Obligations.SampleWordsDecode :=
  ⟨rfl, rfl, rfl, rfl, rfl, rfl, rfl⟩
end

section
/-!
PROOF. The twelve register accesses taken by themselves: what each read returns and each write stores, with its side
effects (O14 to O20).
-/
namespace Sys2Proof.Machine

/-! ## A register access by itself -/

/-- A read by itself returns the register's value as its result; `40_register_ops.md` R110. -/
theorem exec_read_eq_next {r : Reg} {s : State} {w : Word} (h : readReg r s = w) :
    exec (Instr.read r) s = .next { s with results := s.results ++ [.reg w] } := by
  subst h; exact exec_read r s

/-- A write by itself is the write of the register; `40_register_ops.md` R110. -/
theorem exec_write_eq_next {r : Reg} {v : Word} {s t : State} (h : writeReg r v s = t) :
    exec (Instr.write r v) s = .next t := by
  subst h; exact exec_write r v s

/-! ## The control register -/

/-- Only `EN` of a value written to `CR` is stored; `10_state.md` R31. -/
theorem masked_cr (v : Word) : v &&& 0x00000001#32 = if v.getLsbD 0 then 0x00000001#32 else 0x00000000#32 := by
  rw [BitVec.and_one_eq_setWidth_ofBool_getLsbD]
  cases v.getLsbD 0 <;> rfl

theorem writeCr_disables {v : Word} {s : State} (hv : v.getLsbD 0 = false) :
    writeCr v s = { s with cr := 0x00000000#32, txrdy := false } := by
  rw [writeCr, masked_cr, hv]; rfl

theorem writeCr_enables {v : Word} {s : State} (hv : v.getLsbD 0 = true) (ha : armed s = false) :
    writeCr v s = { s with cr := 0x00000001#32, txrdy := true } := by
  rw [writeCr, masked_cr, hv, ha]; rfl

/-- With no change of `EN` the ready flag stays as it was; `40_register_ops.md` R111. -/
theorem writeCr_staysEnabled {v : Word} {s : State} (hv : v.getLsbD 0 = true) (ha : armed s = true) :
    writeCr v s = { s with cr := 0x00000001#32 } := by
  rw [writeCr, masked_cr, hv, ha]; rfl

/-! ## The status register -/

/-- A bit of `ISR` after a write: cleared if it is written as 1 and defined; `40_register_ops.md` R117. -/
theorem writeIsr_getLsbD (v : Word) (s : State) {n : Nat} (hn : n < 32) :
    (writeIsr v s).isr.getLsbD n = (s.isr.getLsbD n && !(v.getLsbD n && Config.evmask.getLsbD n)) := by
  rw [writeIsr_isr, BitVec.getLsbD_and, BitVec.getLsbD_not, BitVec.getLsbD_and, decide_eq_true hn, Bool.true_and]

end Sys2Proof.Machine

open Sys2Proof Sys2Proof.Machine

/-- Settles O14: each is the read of its register, whose value is the one stated. -/
theorem readsReturnAndChangeNothing : Obligations.ReadsReturnAndChangeNothing := fun _ =>
  ⟨exec_read_eq_next (r := .cr) rfl, exec_read_eq_next (r := .cfgr) rfl, exec_read_eq_next (r := .txdr) rfl,
    exec_read_eq_next (r := .rxdr) rfl, exec_read_eq_next (r := .isr) rfl, exec_read_eq_next (r := .ier) rfl⟩

/-- Settles O15: by the bit written to `EN` and the bit it replaces. -/
theorem controlWrite : Obligations.ControlWrite := fun _ _ =>
  ⟨fun hv => exec_write_eq_next (r := .cr) (writeCr_disables hv),
    fun hv ha => exec_write_eq_next (r := .cr) (writeCr_enables hv ha),
    fun hv ha => exec_write_eq_next (r := .cr) (writeCr_staysEnabled hv ha)⟩

/-- Settles O16: by whether the block is armed. -/
theorem configurationWrite : Obligations.ConfigurationWrite := fun _ _ =>
  ⟨fun ha => exec_write_eq_next (r := .cfgr) (writeCfgr_disarmed ha),
    fun ha => exec_write_eq_next (r := .cfgr) (writeCfgr_armed ha)⟩

/-- Settles O17: by whether the peripheral is ready. -/
theorem txDataWrite : Obligations.TxDataWrite := fun _ _ =>
  ⟨fun hr => exec_write_eq_next (r := .txdr) (writeTxdr_notReady hr),
    fun hr => exec_write_eq_next (r := .txdr) (writeTxdr_ready hr)⟩

/-- Settles O18: `ISR` alone is written, and its bits are those of `writeIsr_getLsbD`. -/
theorem statusWriteOneToClear : Obligations.StatusWriteOneToClear := fun s v =>
  ⟨writeIsr v s, exec_write_eq_next (r := .isr) rfl, rfl, fun _ hn => writeIsr_getLsbD v s hn⟩

/-- Settles O19: the write of `IER` is the masked store. -/
theorem interruptEnableWrite : Obligations.InterruptEnableWrite := fun _ _ =>
  exec_write_eq_next (r := .ier) rfl

/-- Settles O20: the write of `RXDR` keeps the state. -/
theorem rxDataWriteIgnored : Obligations.RxDataWriteIgnored := fun _ _ =>
  exec_write_eq_next (r := .rxdr) rfl
end

section
/-!
PROOF. `ARM` and `DISARM`: what each answers with its guard met, the whole next state given (O21, O25), what the agents'
invariant adds for a disarmed block (O24, O27), and the second `DISARM` (O26).
-/
namespace Sys2Proof.Machine
open Sys2Proof.Safety

/-! ## The interrupt line at rest -/

theorem irq_of_isr_zero {s : State} (h : s.isr = 0#32) : irq s = false := by
  rw [irq, h, BitVec.zero_and]; rfl

theorem irq_of_ier_zero {s : State} (h : s.ier = 0#32) : irq s = false := by
  rw [irq, h, BitVec.and_zero]; rfl

/-! ## ARM -/

/-- The own address of a valid Configuration is not out of range; `10_state.md` R44, `41_init_teardown.md` R134. -/
theorem ownOutOfRange_eq_false {cfg : Configuration} (h : ∀ a, cfg.own = some a → a.toNat ≤ 15) :
    ownOutOfRange cfg = false := by
  unfold ownOutOfRange
  cases hown : cfg.own with
  | none => rfl
  | some a => exact decide_eq_false (Nat.not_lt.mpr (h a hown))

theorem ownOutOfRange_eq_true {cfg : Configuration} {a : Byte} (hown : cfg.own = some a) (h : 15 < a.toNat) :
    ownOutOfRange cfg = true := by
  rw [ownOutOfRange, hown]; exact decide_eq_true h

/-- `encode(cfg)` has no bit outside the implemented ones of `CFGR`, so `WR.CFGR` stores all of it; `10_state.md` R32, R45. -/
theorem encodeCfg_masked (cfg : Configuration) : encodeCfg cfg &&& 0xFFFF000F#32 = encodeCfg cfg := by
  have hmask : ∀ i < 32, ¬ (4 ≤ i ∧ i < 16) → (0xFFFF000F#32).getLsbD i = true := by decide
  apply BitVec.eq_of_getLsbD_eq
  intro i hi
  rw [BitVec.getLsbD_and]
  by_cases hr : 4 ≤ i ∧ i < 16
  · have hbit : (encodeCfg cfg).getLsbD i = false := by
      have := congrArg (BitVec.getLsbD · (i - 4)) (encodeCfg_reserved cfg)
      simpa [show i - 4 < 12 by omega, show 4 + (i - 4) = i by omega] using this
    rw [hbit, Bool.false_and]
  · rw [hmask i hi hr, Bool.and_true]

/-- The three register writes of `ARM` on a disarmed block; `41_init_teardown.md` R132. -/
theorem program_disarmed (cfg : Configuration) {s : State} (ha : armed s = false) :
    program cfg s = { s with cfgr := encodeCfg cfg, ier := 0x00003BBB#32, cr := 0x00000001#32, txrdy := true } := by
  have hcfgr : writeReg .cfgr (encodeCfg cfg) s = { s with cfgr := encodeCfg cfg } :=
    (writeCfgr_disarmed ha).trans (by rw [encodeCfg_masked])
  rw [program, hcfgr]
  exact writeCr_enables rfl ha

section arm
variable {cfg : Configuration} {s : State} (hirq : irq s = false)
include hirq

/-- `ARM` with its turn come: the two checks in their order, then the writes; `41_init_teardown.md` R131, R132, R134. -/
theorem exec_arm : exec (.arm cfg) s =
    if armed s then .refused .alreadyArmed
    else if ownOutOfRange cfg then .next (answerCode codeConfigurationInvalid s)
    else .next (answerCode codeOk (setPhase .idle (program cfg s))) := by
  rw [exec, execArm, hostStep_enabled hirq]

/-- Armed is checked before the own address; `41_init_teardown.md` R131. -/
theorem exec_arm_armed (ha : armed s = true) : exec (.arm cfg) s = .refused .alreadyArmed := by
  rw [exec_arm hirq, ha]; rfl

/-- No register is written for an own address out of range; `41_init_teardown.md` R134. -/
theorem exec_arm_outOfRange (ha : armed s = false) (ho : ownOutOfRange cfg = true) :
    exec (.arm cfg) s = .next (answerCode codeConfigurationInvalid s) := by
  rw [exec_arm hirq, ha, ho]; rfl

/-- The state `ARM` leaves; `41_init_teardown.md` R132. -/
theorem exec_arm_programs (ha : armed s = false) (ho : ownOutOfRange cfg = false) :
    exec (.arm cfg) s = .next { s with
      cfgr := encodeCfg cfg
      ier := 0x00003BBB#32
      cr := 0x00000001#32
      txrdy := true
      phase := .idle
      results := s.results ++ [.host [0x00#8]] } := by
  rw [exec_arm hirq, ha, ho, program_disarmed cfg ha]; rfl

end arm

/-! ## DISARM -/

theorem abortTransmit_transmitting {s : State} (h : s.st = .transmitting) :
    abortTransmit s = emit .txAborted { s with txDone := some .aborted } := by rw [abortTransmit, h]

theorem abortTransmit_notTransmitting {s : State} (h : s.st ≠ .transmitting) : abortTransmit s = s := by
  unfold abortTransmit; split
  · contradiction
  · rfl

section disarm
variable {s : State}

/-- `DISARM` with its turn come has no check and completes; `41_init_teardown.md` R135. -/
theorem exec_disarm (hirq : irq s = false) :
    exec .disarm s = .next (answerCode codeOk (setPhase .idle (abortTransmit (unprogram s)))) := by
  rw [exec, execDisarm, hostStep_enabled hirq]

theorem exec_disarm_transmitting (hirq : irq s = false) (hs : s.st = .transmitting) :
    exec .disarm s = .next { s with
      cr := 0x00000000#32
      ier := 0x00000000#32
      isr := s.isr &&& ~~~0x00003BBB#32
      txrdy := false
      phase := .idle
      txDone := some .aborted
      trace := s.trace ++ [.txAborted]
      results := s.results ++ [.host [0x00#8]] } := by
  rw [exec_disarm hirq, abortTransmit_transmitting (s := unprogram s) hs]; rfl

theorem exec_disarm_notTransmitting (hirq : irq s = false) (hs : s.st ≠ .transmitting) :
    exec .disarm s = .next { s with
      cr := 0x00000000#32
      ier := 0x00000000#32
      isr := s.isr &&& ~~~0x00003BBB#32
      txrdy := false
      phase := .idle
      results := s.results ++ [.host [0x00#8]] } := by
  rw [exec_disarm hirq, abortTransmit_notTransmitting (s := unprogram s) hs]; rfl

/-- A block that is already stopped keeps every field but the results; `41_init_teardown.md` R136. -/
theorem exec_disarm_stopped (hcr : s.cr = 0x00000000#32) (hier : s.ier = 0x00000000#32)
    (hisr : s.isr &&& ~~~0x00003BBB#32 = s.isr) (hrdy : s.txrdy = false) (hphase : s.phase = .idle) :
    exec .disarm s = .next { s with results := s.results ++ [.host [0x00#8]] } := by
  have hs : s.st ≠ .transmitting := by rw [State.st, hphase]; nofun
  rw [exec_disarm_notTransmitting (irq_of_ier_zero hier) hs, hisr]
  cases s; cases hcr; cases hier; cases hrdy; cases hphase; rfl

end disarm

end Sys2Proof.Machine

open Sys2Proof Sys2Proof.Machine Sys2Proof.Safety

/-- Settles O21: by the two checks of `ARM` in their order. -/
theorem armProgramsTheRegisters : Obligations.ArmProgramsTheRegisters := fun _ _ hirq =>
  ⟨exec_arm_armed hirq, fun _ ha hown hlt => exec_arm_outOfRange hirq ha (ownOutOfRange_eq_true hown hlt),
    fun ha hown => exec_arm_programs hirq ha (ownOutOfRange_eq_false hown)⟩

/-- Settles O25: by whether a transmit is in progress. -/
theorem disarmStopsTheBlock : Obligations.DisarmStopsTheBlock := fun _ hirq =>
  ⟨fun _ hp => exec_disarm_transmitting hirq (by rw [State.st, hp]; rfl), exec_disarm_notTransmitting hirq⟩

/-- Settles O24: nothing is pending in a disarmed block, and the rest is what `ARM` writes. -/
theorem readyAfterArm : Obligations.ReadyAfterArm := by
  intro cfg s h ha hown
  obtain ⟨hisr, -, -⟩ := h.quiet ha
  exact ⟨_, exec_arm_programs (irq_of_isr_zero hisr) ha (ownOutOfRange_eq_false hown), rfl, by simp, rfl, hisr, rfl⟩

/-- Settles O26: the first `DISARM` leaves a stopped block, whether it aborts a transmit or not. -/
theorem disarmIsIdempotent : Obligations.DisarmIsIdempotent := by
  intro s hirq
  have hfirst := exec_disarm hirq
  rw [abortTransmit_eq] at hfirst
  have hisr : (s.isr &&& ~~~0x00003BBB#32) &&& ~~~0x00003BBB#32 = s.isr &&& ~~~0x00003BBB#32 := by
    rw [BitVec.and_assoc, BitVec.and_self]
  exact ⟨_, hfirst, exec_disarm_stopped rfl rfl hisr rfl rfl⟩

/-- Settles O27: each command's next state is known, and what `DISARM` clears was 0 and `Idle` before the first `ARM`. -/
theorem reArmWithAnotherConfiguration : Obligations.ReArmWithAnotherConfiguration := by
  intro cfg₁ cfg₂ s h ha hown₁ hown₂
  obtain ⟨hisr, -, hphase⟩ := h.quiet ha
  refine ⟨_, _, exec_arm_programs (irq_of_isr_zero hisr) ha (ownOutOfRange_eq_false hown₁),
    exec_disarm_notTransmitting (irq_of_isr_zero hisr) nofun, ?_⟩
  rw [exec_arm_programs (irq_of_ier_zero rfl) (by simp [armed]) (ownOutOfRange_eq_false hown₂)]
  simp [hisr, hphase]
end

section
/-!
PROOF. The receive events: what handling each of them alone does (O37 to O41), and whole frames injected event by event,
ended by their completion or by a receive error (O56, O57).
-/
namespace Sys2Proof.Machine
open Sys2Proof.Safety

/-! ## One receive event handled -/

section events
variable {s : State} {rx : RxState}

/-- A live receive with the bytes `bs` after those it holds; `matched` is computed from byte 0 of the frame;
`42_receive_events.md` R143. -/
def RxState.extend (cfgr : Word) (bs : List Byte) (rx : RxState) : RxState where
  buf := rx.buf ++ bs
  matched := if rx.buf = [] then (bs.head?.map fun b => accept cfgr (dst b)).getD rx.matched else rx.matched

theorem RxState.extend_nil (cfgr : Word) (rx : RxState) : rx.extend cfgr [] = rx := by
  simp [RxState.extend]

theorem RxState.extend_cons (cfgr : Word) (b : Byte) (bs : List Byte) (rx : RxState) :
    (rx.extend cfgr [b]).extend cfgr bs = rx.extend cfgr (b :: bs) := by
  simp [RxState.extend]

/-- The destination nibble of a received byte, read from `RXDR`; `20_memory.md` R62. -/
theorem dst_lowByte (v : Word) : dst (lowByte v) = v.extractLsb' 0 4 := by
  ext i hi
  simp [dst, lowByte]

theorem handle_txError {e : Event} {k : TxErrorKind} {tx : TxState} (he : (e, k) ∈ txErrors)
    (hp : s.phase = .transmitting tx) : handle e s = txError k s := by
  have heq : handle e s = handleTxError e k s := by
    obtain ⟨rfl, rfl⟩ | ⟨rfl, rfl⟩ | ⟨rfl, rfl⟩ : (e = .arblst ∧ k = .arbitrationLost) ∨
      (e = .txacke ∧ k = .ackFailure) ∨ (e = .txerr ∧ k = .lineError) := by simpa [txErrors] using he
    all_goals rfl
  rw [heq, handleTxError, hp]

theorem handle_rxError {e : Event} {k : BusErrorKind} (he : (e, k) ∈ rxErrors) (hp : s.phase = .receiving rx) :
    handle e s = rxError k s := by
  have heq : handle e s = handleRxError e k s := by
    obtain ⟨rfl, rfl⟩ | ⟨rfl, rfl⟩ | ⟨rfl, rfl⟩ : (e = .bre ∧ k = .bitRisingError) ∨
      (e = .sbpe ∧ k = .shortBitPeriodError) ∨ (e = .lbpe ∧ k = .longBitPeriodError) := by simpa [rxErrors] using he
    all_goals rfl
  rw [heq, handleRxError, hp]

/-- The guards of `HandleEffect` fix what handling an event does: it is the one effect whose guard is met. -/
theorem handle_eq_of_effect {e : Event} {t : State} (h : HandleEffect s e t) : handle e s = t := by
  cases h with
  | ignored _ hv => exact handle_violation hv
  | txFails _ k tx hp he => exact handle_txError he hp
  | rxFails _ k rx hp he => exact handle_rxError he hp
  | rxStarts hp => rw [handle, handleRxstart, hp]
  | rxByte rx hp hc => simp [handle, handleRxbr, hp, hc]
  | rxDelivers rx hp hc hm => simp [handle, handleRxend, hp, hc, hm]
  | rxDiscards rx hp hc hm => simp [handle, handleRxend, hp, hc, hm]
  | txByte tx hp hx => simp [handle, handleTxbr, hp, hx]
  | txEnds tx hp hx => simp [handle, handleTxend, hp, hx, endTransmit_setSub]

theorem handle_rxstart_idle (hp : s.phase = .idle) :
    handle .rxstart s = setPhase (.receiving { buf := [], matched := false }) s :=
  handle_eq_of_effect (.rxStarts hp)

theorem handle_rxbr_room (hp : s.phase = .receiving rx) (hc : rx.buf.length < 16) :
    handle .rxbr s = setPhase (.receiving (rx.extend s.cfgr [lowByte s.rxdr])) s := by
  rw [handle_eq_of_effect (.rxByte rx hp hc)]
  simp [RxState.count, readReg, lowByte_zextByte, RxState.extend]

theorem handle_rxend_matched (hp : s.phase = .receiving rx) (hb : rx.buf ≠ []) (hm : rx.matched = true) :
    handle .rxend s = setPhase .idle (deliver rx.buf s) :=
  handle_eq_of_effect (.rxDelivers rx hp (List.length_pos_iff.mpr hb) hm)

theorem handle_rxend_unmatched (hp : s.phase = .receiving rx) (hb : rx.buf ≠ []) (hm : rx.matched = false) :
    handle .rxend s = setPhase .idle (emit .frameIgnored s) :=
  handle_eq_of_effect (.rxDiscards rx hp (List.length_pos_iff.mpr hb) hm)

/-! ### The cells in which a receive event is ignored; `60_exceptions.md` R208 -/

theorem transition_rxstart_of_ne_idle {p : Phase} (h : p ≠ .idle) : transition p .rxstart = false := by
  cases p with
  | idle => exact absurd rfl h
  | receiving => rfl
  | transmitting => rfl

theorem st_of_receiving (hp : s.phase = .receiving rx) : s.st = .receiving := by rw [State.st, hp, Phase.st]

theorem phase_ne_receiving (h : s.st ≠ .receiving) (rx : RxState) : s.phase ≠ .receiving rx :=
  fun hp => h (st_of_receiving hp)

theorem transition_rxbr_noRoom {p : Phase} (h : ∀ rx, p = .receiving rx → 16 ≤ rx.buf.length) :
    transition p .rxbr = false := by
  cases p with
  | idle => rfl
  | receiving rx => exact decide_eq_false (Nat.not_lt.mpr (h rx rfl))
  | transmitting => rfl

theorem transition_rxend_noByte {p : Phase} (h : ∀ rx, p = .receiving rx → rx.buf = []) :
    transition p .rxend = false := by
  cases p with
  | idle => rfl
  | receiving rx => exact decide_eq_false (by simp [RxState.count, h rx rfl])
  | transmitting => rfl

/-- An invocation that takes one event in a cell with no transition records the violation and changes nothing else but
the cleared bit; `60_exceptions.md` R208, R214. -/
theorem seqInvoke_ignored {e : Event} (h : takesOnly e s) (hv : transition s.phase e = false) :
    seqInvoke s = { cleared s with faults := s.faults ++ [.protocolViolation s.st e] } :=
  (seqInvoke_takesOnly h).trans (handle_violation hv)

end events

/-! ## Events raised one after the other, each served before the next -/

/-- Armed, all eleven sources enabled and nothing pending: an event raised now is the one the next invocation takes. -/
structure AtRest (s : State) : Prop where
  armed : armed s = true
  sources : s.ier = 0x00003BBB#32
  nothing_pending : s.isr = 0#32

/-- What the raise of `e` itself leaves once its bit is taken: the byte of `RXBR`, the ready flag of a transmit event;
`60_exceptions.md` R201. -/
def arrived (e : Event) (rxd : Byte) (s : State) : State :=
  { s with
    rxdr := if e = .rxbr then rxd.setWidth 32 else s.rxdr
    txrdy := s.txrdy || decide (e ∈ [Event.txbr, .txend, .arblst, .txacke, .txerr]) }

theorem arrived_rxbr (b : Byte) (s : State) : arrived .rxbr b s = { s with rxdr := b.setWidth 32 } := by
  simp [arrived]

/-- A receive event but `RXBR` brings nothing but its bit. -/
theorem arrived_receive {e : Event} (he : e ∈ [Event.rxstart, .rxend, .bre, .sbpe, .lbpe]) (rxd : Byte) (s : State) :
    arrived e rxd s = s := by
  have hbyte : e ≠ .rxbr := by rintro rfl; simp at he
  have htx : e ∉ [Event.txbr, .txend, .arblst, .txacke, .txerr] := by revert e; decide
  simp [arrived, hbyte, htx]

/-- One event raised on a block at rest and served. -/
def served (e : Event) (rxd : Byte) (s : State) : State := handle e (arrived e rxd s)

section inputs
variable (ts : List Agent) (hs : List Byte) (ls : List (BitVec 24)) (rs : List Byte) (s : State)

theorem txError_withInputs (k : TxErrorKind) :
    txError k (s.withInputs ts hs ls rs) = (txError k s).withInputs ts hs ls rs := by
  rw [txError_eq, txError_eq]; rfl

theorem writeTxdr_withInputs (v : Word) :
    writeTxdr v (s.withInputs ts hs ls rs) = (writeTxdr v s).withInputs ts hs ls rs := by
  cases hr : s.txrdy with
  | true => rw [writeTxdr_ready hr, writeTxdr_ready (s := s.withInputs ts hs ls rs) hr]; rfl
  | false => rw [writeTxdr_notReady hr, writeTxdr_notReady (s := s.withInputs ts hs ls rs) hr]; rfl

theorem deliver_withInputs (f : Frame) :
    deliver f (s.withInputs ts hs ls rs) = (deliver f s).withInputs ts hs ls rs := by
  rw [deliver_eq, deliver_eq]; rfl

/-- No effect of an event depends on the inputs, or changes them. -/
theorem HandleEffect.withInputs {e : Event} {t : State} (h : HandleEffect s e t) :
    HandleEffect (s.withInputs ts hs ls rs) e (t.withInputs ts hs ls rs) := by
  cases h with
  | ignored _ hv => exact .ignored e hv
  | txFails _ k tx hp he => rw [← txError_withInputs]; exact .txFails e k tx hp he
  | rxFails _ k rx hp he => exact .rxFails e k rx hp he
  | rxStarts hp => exact .rxStarts hp
  | rxByte rx hp hc => exact .rxByte rx hp hc
  | rxDelivers rx hp hc hm =>
    have hd := HandleEffect.rxDelivers (s := s.withInputs ts hs ls rs) rx hp hc hm
    rw [deliver_withInputs] at hd
    exact hd
  | rxDiscards rx hp hc hm => exact .rxDiscards rx hp hc hm
  | txByte tx hp hx =>
    have hw := HandleEffect.txByte (s := s.withInputs ts hs ls rs) tx hp hx
    rw [writeReg, writeTxdr_withInputs] at hw
    exact hw
  | txEnds tx hp hx => exact .txEnds tx hp hx

/-- Handling an event neither reads nor changes what the agents have still to present; `60_exceptions.md` R202. -/
theorem handle_withInputs (e : Event) :
    handle e (s.withInputs ts hs ls rs) = (handle e s).withInputs ts hs ls rs :=
  handle_eq_of_effect ((handle_effect e s).withInputs ts hs ls rs)

end inputs

theorem raising_eq_withInputs (words : List (BitVec 24)) (s : State) :
    raising words s =
      s.withInputs (servedRaises words.length ++ s.turns) s.hostIn (words ++ s.lineIn) s.regIn := rfl

/-- The next of the words raised, served: the others are raised from the state it leaves; log entry 3. -/
theorem runs_raising_cons {e : Event} {rxd : Byte} {s : State} (h : AtRest s) (hx : e ≠ .rxbr → rxd = 0#8)
    (words : List (BitVec 24)) :
    runs (raisingSteps (eventWord e rxd :: words)) (raising (eventWord e rxd :: words) s) =
      runs (raisingSteps words) (raising words (served e rxd s)) := by
  have hrun := runs_served (s := raising (eventWord e rxd :: words) s) (words := words ++ s.lineIn) rfl rfl hx h.armed
    h.sources h.nothing_pending (raisingSteps words)
  have hhandle := handle_withInputs (servedRaises words.length ++ s.turns) s.hostIn (words ++ s.lineIn) s.regIn
    (arrived e rxd s) e
  have hb := handle_sameBus e (arrived e rxd s)
  refine hrun.trans (congrArg _ (hhandle.trans ?_))
  rw [raising_eq_withInputs, served, hb.turns, hb.hostIn, hb.lineIn, hb.regIn]
  rfl

/-! ### A start bit and bytes -/

/-- The last of the bytes received, as `RXDR` holds it; `60_exceptions.md` R201. -/
def lastReceived (bs : List Byte) (v : Word) : Word := (bs.getLast?.map (BitVec.setWidth 32)).getD v

theorem lastReceived_cons (b : Byte) (bs : List Byte) (v : Word) :
    lastReceived (b :: bs) v = lastReceived bs (b.setWidth 32) := by
  cases h : bs.getLast? <;> simp [lastReceived, List.getLast?_cons, h]

theorem lastReceived_frame (h : Byte) (payload : List Byte) (v : Word) :
    lastReceived (h :: payload) v = ((h :: payload).getLastD 0#8).setWidth 32 := by
  simp [lastReceived, List.getLast?_cons, List.getLastD_eq_getLast?]

/-- `s` with the live receive `rx` after the bytes `bs` more; `42_receive_events.md` R143. -/
def receivingBytes (rx : RxState) (bs : List Byte) (s : State) : State :=
  { s with rxdr := lastReceived bs s.rxdr, phase := .receiving (rx.extend s.cfgr bs) }

section receiving
variable {s : State} {rx : RxState}

theorem receivingBytes_nil (hp : s.phase = .receiving rx) : receivingBytes rx [] s = s := by
  rw [receivingBytes, RxState.extend_nil, ← hp]; rfl

theorem receivingBytes_cons (rx : RxState) (b : Byte) (bs : List Byte) (s : State) :
    receivingBytes (rx.extend s.cfgr [b]) bs (receivingBytes rx [b] s) = receivingBytes rx (b :: bs) s := by
  simp only [receivingBytes, RxState.extend_cons, lastReceived_cons]; rfl

theorem atRest_receivingBytes (h : AtRest s) (rx : RxState) (bs : List Byte) : AtRest (receivingBytes rx bs s) :=
  ⟨h.armed, h.sources, h.nothing_pending⟩

theorem served_rxstart (hp : s.phase = .idle) :
    served .rxstart 0#8 s = receivingBytes { buf := [], matched := false } [] s := by
  rw [served, arrived_receive (by decide), handle_rxstart_idle hp]; rfl

theorem served_rxbr (b : Byte) (hp : s.phase = .receiving rx) (hc : rx.buf.length < 16) :
    served .rxbr b s = receivingBytes rx [b] s := by
  have hlow : lowByte (b.setWidth 32) = b := lowByte_zextByte b
  rw [served, arrived_rxbr, handle_rxbr_room (s := { s with rxdr := b.setWidth 32 }) hp hc]
  simp only [hlow]
  rfl

/-- Bytes raised while a receive has room for all of them; `42_receive_events.md` R143. -/
theorem runs_raising_bytes (bs : List Byte) (words : List (BitVec 24)) (h : AtRest s) (hp : s.phase = .receiving rx)
    (hlen : rx.buf.length + bs.length ≤ 16) :
    runs (raisingSteps (bs.map (eventWord .rxbr) ++ words)) (raising (bs.map (eventWord .rxbr) ++ words) s) =
      runs (raisingSteps words) (raising words (receivingBytes rx bs s)) := by
  induction bs generalizing s rx with
  | nil => rw [receivingBytes_nil hp]; rfl
  | cons b bs ih =>
    rw [List.length_cons] at hlen
    have hroom : (rx.extend s.cfgr [b]).buf.length + bs.length ≤ 16 := by
      simp only [RxState.extend, List.length_append, List.length_singleton]; omega
    rw [List.map_cons, List.cons_append, runs_raising_cons h (by simp), served_rxbr b hp (by omega),
      ih (atRest_receivingBytes h rx [b]) rfl hroom, receivingBytes_cons]

/-- A start bit met in `Idle` and up to sixteen bytes; `42_receive_events.md` R141, R143. -/
theorem runs_raising_startAndBytes (bs : List Byte) (words : List (BitVec 24)) (h : AtRest s) (hp : s.phase = .idle)
    (hlen : bs.length ≤ 16) :
    runs (raisingSteps (startAndBytes bs ++ words)) (raising (startAndBytes bs ++ words) s) =
      runs (raisingSteps words) (raising words (receivingBytes { buf := [], matched := false } bs s)) := by
  rw [startAndBytes, List.cons_append, runs_raising_cons h (by simp), served_rxstart hp,
    runs_raising_bytes bs words (atRest_receivingBytes h _ _) rfl (by simpa [RxState.extend] using hlen)]
  rfl

/-- A start bit, up to sixteen bytes, and a receive event that ends the receive. -/
theorem runs_raising_attempt {e : Event} (he : e ∈ [Event.rxend, .bre, .sbpe, .lbpe]) (bs : List Byte) (h : AtRest s)
    (hp : s.phase = .idle) (hlen : bs.length ≤ 16) :
    let words := startAndBytes bs ++ [eventWord e 0#8]
    runs (raisingSteps words) (raising words s) =
      .next (handle e (receivingBytes { buf := [], matched := false } bs s)) := by
  dsimp only
  rw [runs_raising_startAndBytes bs _ h hp hlen, runs_raising_cons (atRest_receivingBytes h _ _) (fun _ => rfl), served,
    arrived_receive (List.mem_cons_of_mem _ he)]
  rfl

end receiving

/-! ## `RECEIVE` -/

/-- `RECEIVE` with a frame in the channel returns the oldest; `44_host_api.md` R183. -/
theorem exec_receive_oldest {s : State} {f : Frame} {q : List Frame} (hirq : irq s = false) (hq : s.rxq = f :: q) :
    exec .receive s = .next { s with rxq := q, results := s.results ++ [received f] } := by
  rw [exec, execReceive, hostStep_enabled hirq, hq]; rfl

/-- As many `RECEIVE` as the channel holds frames return them in order and empty it; `44_host_api.md` R183. -/
theorem receives_all {s : State} {q : List Frame} (hirq : irq s = false) (hq : s.rxq = q) :
    receives q.length s = .next { s with rxq := [], results := s.results ++ q.map received } := by
  induction q generalizing s with
  | nil => rw [List.map_nil, List.append_nil, List.length_nil, receives, ← hq]
  | cons f q ih =>
    have hrest := ih (s := { s with rxq := q, results := s.results ++ [received f] }) hirq rfl
    rw [List.length_cons, List.map_cons, List.append_cons, receives, exec_receive_oldest hirq hq]
    exact hrest

end Sys2Proof.Machine

open Sys2Proof Sys2Proof.Machine Sys2Proof.Safety

/-- Settles O37: by whether the block is `Idle`. -/
theorem startBitStartsAReceive : Obligations.StartBitStartsAReceive := fun s h =>
  ⟨fun hp => (seqInvoke_takesOnly h).trans (handle_rxstart_idle (s := cleared s) hp),
    fun hp => seqInvoke_ignored h (transition_rxstart_of_ne_idle hp)⟩

/-- Settles O38: by whether a receive is live and has room. -/
theorem byteReceivedIsAppended : Obligations.ByteReceivedIsAppended := by
  intro s h
  refine ⟨?room, ?full, ?other⟩
  case room =>
    intro rx hp hc
    rw [seqInvoke_takesOnly h, handle_rxbr_room (s := cleared s) hp hc, ← dst_lowByte]
    rfl
  case full =>
    intro rx hp hc
    rw [← st_of_receiving hp]
    exact seqInvoke_ignored h (transition_rxbr_noRoom (by simp [hp, hc]))
  case other =>
    exact fun hs => seqInvoke_ignored h (transition_rxbr_noRoom fun rx hp => absurd hp (phase_ne_receiving hs rx))

/-- Settles O39: by whether a receive is live, holds a byte, and is matched. -/
theorem receiveCompleteDeliversOrIgnores : Obligations.ReceiveCompleteDeliversOrIgnores := by
  intro s h
  refine ⟨?delivers, ?ignores, ?empty, ?other⟩
  case delivers =>
    intro rx hp hb hm
    rw [seqInvoke_takesOnly h, handle_rxend_matched (s := cleared s) hp hb hm, deliver_eq]
    rfl
  case ignores =>
    intro rx hp hb hm
    rw [seqInvoke_takesOnly h, handle_rxend_unmatched (s := cleared s) hp hb hm]
    rfl
  case empty =>
    intro rx hp hb
    rw [← st_of_receiving hp]
    exact seqInvoke_ignored h (transition_rxend_noByte (by simp [hp, hb]))
  case other =>
    exact fun hs => seqInvoke_ignored h (transition_rxend_noByte fun rx hp => absurd hp (phase_ne_receiving hs rx))

/-- Settles O40: a full channel has an oldest frame, as the capacity is at least 1. -/
theorem deliveryDropsOnlyTheOldest : Obligations.DeliveryDropsOnlyTheOldest := by
  intro cap f s hcap
  refine ⟨fun hfull => ?_, fun hroom => deliverAt_room hroom⟩
  obtain ⟨g, q, hq⟩ := List.exists_cons_of_length_pos (l := s.rxq) (by omega)
  refine ⟨g, q, hq, ?_⟩
  rw [deliverAt_full hq hfull]
  simp [emit]

/-- Settles O41: by whether a receive is live. -/
theorem receiveErrorDiscardsTheFrame : Obligations.ReceiveErrorDiscardsTheFrame := by
  intro s e k he h
  refine ⟨fun hs => ?_, fun hs => seqInvoke_ignored h (transition_rxError he (phase_ne_receiving hs))⟩
  cases hp : s.phase with
  | receiving rx => exact (seqInvoke_takesOnly h).trans (handle_rxError (s := cleared s) he hp)
  | _ => simp [State.st, hp, Phase.st] at hs

/-- Settles O57: the error meets the receive that the start bit began, whatever bytes it holds. -/
theorem receiveErrorNeverCompletesAFrame : Obligations.ReceiveErrorNeverCompletesAFrame := by
  intro s bs e k he hlen ha hier hisr hp
  have hmem : e ∈ [Event.rxend, .bre, .sbpe, .lbpe] :=
    List.mem_cons_of_mem _ (List.mem_map_of_mem (f := Prod.fst) he)
  refine (runs_raising_attempt hmem bs ⟨ha, hier, hisr⟩ hp hlen).trans ?_
  rw [handle_rxError he rfl, rxError, ← hp]
  rfl

/-- Settles O56: the receive that the start bit began holds the frame when its end comes, and it is matched exactly if
the header's destination is accepted. -/
theorem injectedFrameIsDeliveredOnce : Obligations.InjectedFrameIsDeliveredOnce := by
  intro s h payload f hlen ha hier hisr hp
  have hrun := runs_raising_attempt (e := .rxend) (by simp) f ⟨ha, hier, hisr⟩ hp hlen
  refine ⟨fun hacc => ?accepted, fun hacc => ?ignored⟩
  case accepted =>
    refine ⟨hrun.trans ?_, receives_all (irq_of_isr_zero hisr) rfl⟩
    rw [handle_rxend_matched (s := receivingBytes { buf := [], matched := false } f s) rfl nofun hacc, deliver_eq,
      ← hp, ← lastReceived_frame h payload s.rxdr]
    rfl
  case ignored =>
    refine hrun.trans ?_
    rw [handle_rxend_unmatched (s := receivingBytes { buf := [], matched := false } f s) rfl nofun hacc, ← hp,
      ← lastReceived_frame h payload s.rxdr]
    rfl
end

section
/-!
PROOF. The command `TRANSMIT`: its checks and its acceptance (O28, O29); the transmit events: what handling each of them
alone does (O42 to O44); and a whole frame transmitted byte request by byte request (O58).
-/
namespace Sys2Proof.Machine
open Sys2Proof.Safety

/-! ## TRANSMIT -/

/-- `s` with a frame accepted by a ready peripheral: its first byte in `TXDR`; `43_transmit_events.md` R161. -/
def transmitStarted (b0 : Byte) (payload : Frame) (s : State) : State :=
  { s with
    txdr := b0.setWidth 32
    txrdy := false
    phase := .transmitting { frame := b0 :: payload, idx := 1, sub := .waitSFT }
    trace := s.trace ++ [.txByte b0]
    results := s.results ++ [.host [0x00#8]] }

section command
variable {s : State} {f payload : Frame} {b0 : Byte}

theorem st_eq_idle_iff : s.st = .idle ↔ s.phase = .idle := by
  cases hp : s.phase <;> simp [State.st, hp, Phase.st]

/-- Whatever is not `Idle` is `Receiving` or a transmit in flight, and so is an outcome not yet taken;
`43_transmit_events.md` R162. -/
theorem inFlight_or_receiving_iff :
    (inFlight s = true ∨ s.st = .receiving) ↔ (s.phase ≠ .idle ∨ s.txDone ≠ none) := by
  cases hp : s.phase <;> simp [inFlight, State.st, hp, Phase.st, Option.isSome_iff_ne_none]

/-- A length out of range is found before anything else is looked at; `43_transmit_events.md` R161. -/
theorem exec_transmit_invalid (hirq : irq s = false) (hf : f.length = 0 ∨ 16 < f.length) :
    exec (.transmit f) s = .next (answerCode codeInvalidFrame s) := by
  rw [exec, execTransmit, hostStep_enabled hirq]
  cases f with
  | nil => rfl
  | cons b0 payload => exact if_pos (hf.resolve_left nofun)

/-- A frame of a valid length: the other checks in their order, and the acceptance; `43_transmit_events.md` R161. -/
theorem exec_transmit_valid (hirq : irq s = false) (hl : (b0 :: payload).length ≤ 16) :
    exec (.transmit (b0 :: payload)) s =
      if armed s = false then .refused .notArmed
      else if s.phase ≠ .idle ∨ s.txDone ≠ none then .next (answerCode codeBusy s)
      else .next (answerCode codeOk (startTransmit b0 payload s)) := by
  rw [exec, execTransmit, hostStep_enabled hirq]
  dsimp only
  rw [if_neg (Nat.not_lt.mpr hl)]
  simp [st_eq_idle_iff, Option.isSome_iff_ne_none]

theorem exec_transmit_notArmed (hirq : irq s = false) (h1 : 1 ≤ f.length) (h16 : f.length ≤ 16) (ha : armed s = false) :
    exec (.transmit f) s = .refused .notArmed := by
  obtain ⟨b0, payload, rfl⟩ := List.exists_cons_of_length_pos h1
  rw [exec_transmit_valid hirq h16, if_pos ha]

theorem exec_transmit_busy (hirq : irq s = false) (h1 : 1 ≤ f.length) (h16 : f.length ≤ 16) (ha : armed s = true)
    (hb : s.phase ≠ .idle ∨ s.txDone ≠ none) : exec (.transmit f) s = .next (answerCode codeBusy s) := by
  obtain ⟨b0, payload, rfl⟩ := List.exists_cons_of_length_pos h1
  rw [exec_transmit_valid hirq h16, if_neg (by simp [ha]), if_pos hb]

section accepted
variable (hirq : irq s = false) (hl : (b0 :: payload).length ≤ 16) (ha : armed s = true) (hp : s.phase = .idle)
  (hd : s.txDone = none)
include hirq hl ha hp hd

theorem exec_transmit_starts :
    exec (.transmit (b0 :: payload)) s = .next (answerCode codeOk (startTransmit b0 payload s)) := by
  rw [exec_transmit_valid hirq hl, if_neg (by simp [ha]), if_neg (by simp [hp, hd])]

theorem exec_transmit_starts_ready (hr : s.txrdy = true) :
    exec (.transmit (b0 :: payload)) s = .next (transmitStarted b0 payload s) := by
  rw [exec_transmit_starts hirq hl ha hp hd, startTransmit, writeReg, writeTxdr_ready hr, lowByte_zextByte]; rfl

/-- With the peripheral not ready the write records its fault, and the transmit starts all the same; `00_scope.md` R10. -/
theorem exec_transmit_starts_notReady (hr : s.txrdy = false) :
    exec (.transmit (b0 :: payload)) s = .next { s with
      phase := .transmitting { frame := b0 :: payload, idx := 1, sub := .waitSFT }
      faults := s.faults ++ [.txDataNotReady]
      results := s.results ++ [.host [0x00#8]] } := by
  rw [exec_transmit_starts hirq hl ha hp hd, startTransmit, writeReg, writeTxdr_notReady hr]; rfl

end accepted
end command

/-- `TXWAIT` with the slot full takes the outcome; `44_host_api.md` R182. -/
theorem exec_txwait_outcome {s : State} {r : TxOutcome} (hirq : irq s = false) (hd : s.txDone = some r) :
    exec .txwait s = .next { s with txDone := none, results := s.results ++ [.host [r.code]] } := by
  rw [exec, execTxwait, hostStep_enabled hirq, hd]; rfl

/-! ## One transmit event handled -/

section events
variable {s : State} {tx : TxState} {b : Byte}

theorem st_of_transmitting (hp : s.phase = .transmitting tx) : s.st = .transmitting := by rw [State.st, hp, Phase.st]

theorem phase_ne_transmitting (h : s.st ≠ .transmitting) (tx : TxState) : s.phase ≠ .transmitting tx :=
  fun hp => h (st_of_transmitting hp)

/-- The live transmit after one more byte has been asked for; `43_transmit_events.md` R163. -/
def TxState.advance (tx : TxState) : TxState := { tx with idx := tx.idx + 1, sub := .byteInFlight }

/-- `s` with the byte `b` of the live transmit `tx` written to `TXDR`; `43_transmit_events.md` R163. -/
def byteSent (tx : TxState) (b : Byte) (s : State) : State :=
  { s with
    txdr := b.setWidth 32
    txrdy := false
    phase := .transmitting tx.advance
    trace := s.trace ++ [.txByte b] }

/-- A byte request with the byte `b` at the index; `43_transmit_events.md` R163. -/
theorem handle_txbr_byte (hp : s.phase = .transmitting tx) (hb : tx.frame[tx.idx]? = some b) :
    handle .txbr s = setPhase (.transmitting tx.advance) (writeTxdr (zextByte b) s) := by
  obtain ⟨hx, -⟩ := List.getElem?_eq_some_iff.mp hb
  rw [handle_eq_of_effect (.txByte tx hp hx), List.getD_eq_getElem?_getD, hb]; rfl

theorem handle_txbr_ready (hp : s.phase = .transmitting tx) (hb : tx.frame[tx.idx]? = some b) (hr : s.txrdy = true) :
    handle .txbr s = byteSent tx b s := by
  rw [handle_txbr_byte hp hb, writeTxdr_ready hr, lowByte_zextByte]; rfl

/-- With the peripheral not ready the write records its fault, and the index advances all the same; `00_scope.md` R10. -/
theorem handle_txbr_notReady (hp : s.phase = .transmitting tx) (hx : tx.idx < tx.frame.length) (hr : s.txrdy = false) :
    handle .txbr s = setPhase (.transmitting tx.advance) (record .txDataNotReady s) := by
  rw [handle_txbr_byte hp (List.getElem?_eq_getElem hx), writeTxdr_notReady hr]

theorem handle_txend_complete (hp : s.phase = .transmitting tx) (hx : tx.idx = tx.frame.length) :
    handle .txend s = endTransmit .ok (emit .txSucceeded s) :=
  handle_eq_of_effect (.txEnds tx hp hx)

/-! ### The cells in which a transmit event is ignored; `60_exceptions.md` R208 -/

theorem transition_txbr_noByte {p : Phase} (h : ∀ tx, p = .transmitting tx → tx.frame.length ≤ tx.idx) :
    transition p .txbr = false := by
  cases p with
  | idle => rfl
  | receiving => rfl
  | transmitting tx => exact decide_eq_false (Nat.not_lt.mpr (h tx rfl))

theorem transition_txend_bytesLeft {p : Phase} (h : ∀ tx, p = .transmitting tx → tx.idx ≠ tx.frame.length) :
    transition p .txend = false := by
  cases p with
  | idle => rfl
  | receiving => rfl
  | transmitting tx => exact decide_eq_false (h tx rfl)

end events

/-! ## A frame transmitted, each event served before the next -/

section transmitting
variable {s : State} {tx : TxState}

/-- A byte request raised and served: the raise makes the peripheral ready for the byte; `60_exceptions.md` R201. -/
theorem served_txbr {b : Byte} (hp : s.phase = .transmitting tx) (hb : tx.frame[tx.idx]? = some b) :
    served .txbr 0#8 s = byteSent tx b s :=
  handle_txbr_ready (s := arrived .txbr 0#8 s) hp hb (Bool.or_true _)

/-- A completion raised and served with every byte written; `43_transmit_events.md` R164. -/
theorem served_txend (hp : s.phase = .transmitting tx) (hx : tx.idx = tx.frame.length) :
    served .txend 0#8 s =
      { s with txrdy := true, phase := .idle, txDone := some .ok, trace := s.trace ++ [.txSucceeded] } := by
  rw [served, handle_txend_complete (s := arrived .txend 0#8 s) hp hx, arrived, decide_eq_true (by simp), Bool.or_true]
  rfl

/-- From a transmit with the bytes `bs` left, one request for each of them and a completion write them to `TXDR` in order
and report success; `lastReceived bs` is what a register holds after `bs`. -/
theorem runs_raising_requests (sent bs : List Byte) (h : AtRest s) (hp : s.phase = .transmitting tx)
    (hf : tx.frame = sent ++ bs) (hx : tx.idx = sent.length) :
    let words := List.replicate bs.length (eventWord .txbr 0#8) ++ [eventWord .txend 0#8]
    runs (raisingSteps words) (raising words s) = .next { s with
      txdr := lastReceived bs s.txdr
      txrdy := true
      phase := .idle
      txDone := some .ok
      trace := s.trace ++ bs.map .txByte ++ [.txSucceeded] } := by
  dsimp only
  induction bs generalizing s tx sent with
  | nil =>
    rw [List.length_nil, List.replicate_zero, List.nil_append, runs_raising_cons h (fun _ => rfl),
      served_txend hp (by simp [hf, hx]), List.map_nil, List.append_nil]
    rfl
  | cons b bs ih =>
    have hb : tx.frame[tx.idx]? = some b := by simp [hf, hx]
    have hrest := ih (s := byteSent tx b s) (tx := tx.advance) (sent ++ [b])
      ⟨h.armed, h.sources, h.nothing_pending⟩ rfl (by simp [TxState.advance, hf]) (by simp [TxState.advance, hx])
    rw [List.length_cons, List.replicate_succ, List.cons_append, runs_raising_cons h (fun _ => rfl),
      served_txbr hp hb, hrest, lastReceived_cons, List.map_cons, List.append_cons s.trace]
    rfl

end transmitting

/-- The `HOST` turn of a command that never waits, and then the words raised from the state it leaves; log entry 3. -/
theorem runs_commandThenRaising {cmd : List Byte} {i : Instr} {s t : State} (words : List (BitVec 24))
    (hirq : irq s = false) (hw : ∀ s, waits i s = false) (hd : ∀ rest, decodeHost (cmd ++ rest) = .ok (i, rest))
    (hex : exec i (raising words s) = .next (raising words t)) :
    runs (1 + raisingSteps words) (commandThenRaising cmd words s) = runs (raisingSteps words) (raising words t) := by
  have hstep : step (commandThenRaising cmd words s) = .next (raising words t) := by
    rw [step_agentTurn (turns := servedRaises words.length ++ s.turns) rfl, ← hex]
    exact hostTurn_ready (pre := []) hirq rfl nofun (hd _) (hw _)
  rw [Nat.add_comm, runs, hstep]

end Sys2Proof.Machine

open Sys2Proof Sys2Proof.Machine Sys2Proof.Safety

/-- Settles O28: the length is checked first; the rest is the order of the checks of a valid frame. -/
theorem transmitIsCheckedAndStarted : Obligations.TransmitIsCheckedAndStarted := by
  intro f s hirq
  refine ⟨exec_transmit_invalid hirq, exec_transmit_notArmed hirq, exec_transmit_busy hirq, ?ready, ?notReady⟩
  case ready =>
    rintro b0 payload rfl h16 ha hp hd hr
    exact exec_transmit_starts_ready hirq h16 ha hp hd hr
  case notReady =>
    intro h1 h16 ha hp hd hr
    obtain ⟨b0, payload, rfl⟩ := List.exists_cons_of_length_pos h1
    exact exec_transmit_starts_notReady hirq h16 ha hp hd hr

/-- Settles O29: a block that is free accepts a valid frame and is `Transmitting`, which a `Busy` answer does not make it. -/
theorem busyExactlyWhileInFlightOrReceiving : Obligations.BusyExactlyWhileInFlightOrReceiving := by
  refine ⟨?inFlight, ?busy, fun f s hirq ha h1 h16 => exec_transmit_notArmed hirq h1 h16 ha⟩
  case inFlight => intro s; simp [inFlight, Option.isSome_iff_ne_none]
  case busy =>
    intro f s hirq ha h1 h16
    rw [inFlight_or_receiving_iff]
    refine ⟨fun hex => ?_, exec_transmit_busy hirq h1 h16 ha⟩
    by_contra hfree
    obtain ⟨hp, hd⟩ : s.phase = .idle ∧ s.txDone = none := by simpa using hfree
    obtain ⟨b0, payload, rfl⟩ := List.exists_cons_of_length_pos h1
    rw [exec_transmit_starts hirq h16 ha hp hd] at hex
    have hphase := congrArg State.phase (Host.Outcome.next.inj hex)
    simp [startTransmit, hp] at hphase

/-- Settles O42: by whether a transmit is live, has a byte left, and the peripheral is ready. -/
theorem byteRequestWritesTheNextByte : Obligations.ByteRequestWritesTheNextByte := by
  intro s h
  refine ⟨?ready, ?notReady, ?noByte, ?other⟩
  case ready => exact fun tx b hp hb hr => (seqInvoke_takesOnly h).trans (handle_txbr_ready (s := cleared s) hp hb hr)
  case notReady => exact fun tx hp hx hr => (seqInvoke_takesOnly h).trans (handle_txbr_notReady (s := cleared s) hp hx hr)
  case noByte =>
    intro tx hp hx
    rw [← st_of_transmitting hp]
    exact seqInvoke_ignored h (transition_txbr_noByte (by simp [hp, hx]))
  case other =>
    exact fun hs => seqInvoke_ignored h (transition_txbr_noByte fun tx hp => absurd hp (phase_ne_transmitting hs tx))

/-- Settles O43: by whether a transmit is live and every byte of it is written. -/
theorem transmitCompleteReportsOk : Obligations.TransmitCompleteReportsOk := by
  intro s h
  refine ⟨?complete, ?bytesLeft, ?other⟩
  case complete => exact fun tx hp hx => (seqInvoke_takesOnly h).trans (handle_txend_complete (s := cleared s) hp hx)
  case bytesLeft =>
    intro tx hp hx
    rw [← st_of_transmitting hp]
    exact seqInvoke_ignored h (transition_txend_bytesLeft (by simp [hp, hx]))
  case other =>
    exact fun hs => seqInvoke_ignored h (transition_txend_bytesLeft fun tx hp => absurd hp (phase_ne_transmitting hs tx))

/-- Settles O44: by whether a transmit is live. -/
theorem transmitErrorReportsItsKind : Obligations.TransmitErrorReportsItsKind := by
  intro s e k he h
  refine ⟨fun hs => ?_, fun hs => seqInvoke_ignored h (transition_txError he (phase_ne_transmitting hs))⟩
  cases hp : s.phase with
  | transmitting tx => rw [seqInvoke_takesOnly h, handle_txError (s := cleared s) he hp, txError_eq]; rfl
  | _ => simp [State.st, hp, Phase.st] at hs

/-- Settles O58: the command writes the first byte, each request one of the others, and the slot then holds the outcome
that `TXWAIT` takes. -/
theorem transmittedFrameIsWrittenInOrder : Obligations.TransmittedFrameIsWrittenInOrder := by
  intro s h payload f hlen ha hier hisr hp hd hr words t
  have hirq : irq s = false := irq_of_isr_zero hisr
  refine ⟨?_, exec_txwait_outcome (s := t) (irq_of_isr_zero hisr) rfl⟩
  have hcommand := exec_transmit_starts_ready (s := raising words s) hirq hlen ha hp hd hr
  refine (runs_commandThenRaising (t := transmitStarted h payload s) words hirq (fun _ => rfl)
    (decodeHost_encodeTransmit (Nat.le_trans hlen (by decide))) hcommand).trans ?_
  have hrequests := runs_raising_requests (s := transmitStarted h payload s)
    (tx := { frame := f, idx := 1, sub := .waitSFT }) [h] payload ⟨ha, hier, hisr⟩ rfl rfl rfl
  refine hrequests.trans ?_
  have htxdr : lastReceived payload (h.setWidth 32) = (f.getLastD 0#8).setWidth 32 :=
    (lastReceived_cons h payload 0#32).symm.trans (lastReceived_frame h payload 0#32)
  simp [t, f, transmitStarted, htxdr, hp, hr]
end

section
/-!
PROOF. The commands that collect what the sequencer hands off: `TXWAIT`, `RECEIVE` and `LAST_ERROR` by themselves (O30 to
O32), and the `DISARM` that lifts the hold of a `TXWAIT` (O4).
-/
namespace Sys2Proof.Machine
open Sys2Proof.Safety

/-! ## A command with nothing to collect -/

section collecting
variable {s : State} (hirq : irq s = false)
include hirq

/-- `TXWAIT` waits for the transmit in progress; `44_host_api.md` R182. -/
theorem exec_txwait_held (hd : s.txDone = none) (hs : s.st = .transmitting) : exec .txwait s = .next s := by
  rw [exec, execTxwait, hostStep_enabled hirq, hd, hs]; rfl

/-- With no transmit in progress nothing could fill the slot; `44_host_api.md` R182. -/
theorem exec_txwait_refused (hd : s.txDone = none) (hs : s.st ≠ .transmitting) :
    exec .txwait s = .refused .noTransmitToCollect := by
  rw [exec, execTxwait, hostStep_enabled hirq, hd]
  exact if_neg (by simpa using hs)

/-- `RECEIVE` waits for a delivery; `44_host_api.md` R183. -/
theorem exec_receive_held (hq : s.rxq = []) : exec .receive s = .next s := by
  rw [exec, execReceive, hostStep_enabled hirq, hq]

/-- `LAST_ERROR` never waits: it answers the latch and empties it; `44_host_api.md` R184. -/
theorem exec_lastError :
    exec .lastError s = .next { s with
      lastError := none, results := s.results ++ [.host [lastErrorCode s.lastError]] } := by
  rw [exec, execLastError, hostStep_enabled hirq]; rfl

end collecting

/-! ## `HOST` turns -/

/-- A `HOST` turn runs the first command issued that does not wait, and those before it stay in line; log entry 25. -/
theorem step_command {s : State} {turns : List Agent} {waiting own rest : List Byte} {i : Instr}
    (ht : s.turns = .host :: turns) (hirq : irq s = false) (hin : s.hostIn = waiting ++ own) (hwait : allWait waiting s)
    (hd : decodeHost own = .ok (i, rest)) (hw : waits i s = false) :
    step s = exec i { s with turns := turns, hostIn := waiting ++ rest } :=
  (step_agentTurn ht).trans (hostTurn_ready hirq hin hwait hd hw)

/-- With the slot filled, the `HOST` turn of a `TXWAIT` first in line takes the outcome; `44_host_api.md` R182. -/
theorem step_txwait_outcome {s : State} {turns : List Agent} {rest : List Byte} {r : TxOutcome}
    (ht : s.turns = .host :: turns) (hirq : irq s = false) (hin : s.hostIn = 0x04#8 :: rest) (hd : s.txDone = some r) :
    step s = .next { s with
      turns := turns, hostIn := rest, txDone := none, results := s.results ++ [.host [r.code]] } :=
  (step_command (waiting := []) ht hirq hin nofun (decodeHost_txwait rest) (by simp [waits, hd])).trans
    (exec_txwait_outcome hirq hd)

/-- Behind commands that wait a `DISARM` runs and aborts the transmit; `41_init_teardown.md` R135, `60_exceptions.md` R216. -/
theorem step_disarm_behind_waiting {s : State} {turns : List Agent} {waiting rest : List Byte}
    (ht : s.turns = .host :: turns) (hirq : irq s = false) (hin : s.hostIn = waiting ++ 0x02#8 :: rest)
    (hwait : allWait waiting s) (hs : s.st = .transmitting) :
    step s = .next { s with
      turns := turns
      hostIn := waiting ++ rest
      cr := 0x00000000#32
      ier := 0x00000000#32
      isr := s.isr &&& ~~~0x00003BBB#32
      txrdy := false
      phase := .idle
      txDone := some .aborted
      trace := s.trace ++ [.txAborted]
      results := s.results ++ [.host [0x00#8]] } :=
  (step_command ht hirq hin hwait rfl rfl).trans (exec_disarm_transmitting hirq hs)

theorem runs_two {s t u : State} (hfirst : step s = .next t) (hsecond : step t = .next u) : runs 2 s = .next u := by
  simp only [runs, hfirst, hsecond]

end Sys2Proof.Machine

open Sys2Proof Sys2Proof.Machine Sys2Proof.Safety

/-- Settles O30: by what the completion slot holds, and with an empty one by whether a transmit is in progress. -/
theorem txWaitTakesTheOutcome : Obligations.TxWaitTakesTheOutcome := fun _ hirq =>
  ⟨exec_txwait_outcome hirq, exec_txwait_outcome hirq, exec_txwait_outcome hirq, exec_txwait_outcome hirq,
    exec_txwait_outcome hirq, exec_txwait_held hirq, exec_txwait_refused hirq⟩

/-- Settles O31: by whether the channel holds a frame. -/
theorem receivePopsTheOldestFrame : Obligations.ReceivePopsTheOldestFrame := fun _ hirq =>
  ⟨fun _ _ => exec_receive_oldest hirq, exec_receive_held hirq⟩

/-- Settles O32: the answer is the latch's code, and an empty latch is left as it is. -/
theorem lastErrorReadsAndClears : Obligations.LastErrorReadsAndClears := by
  intro s hirq
  refine ⟨fun hempty => ?empty, fun k hlatched => ?latched, rfl, rfl, rfl, rfl, rfl, rfl⟩
  case empty => rw [exec_lastError hirq, hempty]; rfl
  case latched => rw [exec_lastError hirq, hlatched]; rfl

/-- Settles O4: the first turn passes over the `TXWAIT` and what waits behind it and runs the `DISARM`, which ends the
transmit and fills the slot; so in the second turn the `TXWAIT`, still first in line, no longer waits. -/
theorem disarmLiftsTheHoldOfTxWait : Obligations.DisarmLiftsTheHoldOfTxWait := by
  intro s tx turns pre rest hturns hin hpre hp hd hirq
  have hst : s.st = .transmitting := st_of_transmitting hp
  have hwait : allWait (0x04#8 :: pre) s := allWait_cons.mpr ⟨by simp [allWait, hst, hd], hpre⟩
  have hdisarm := step_disarm_behind_waiting hturns hirq hin hwait hst
  refine (runs_two hdisarm (step_txwait_outcome rfl (irq_of_ier_zero rfl) rfl rfl)).trans ?_
  simp [hd, TxOutcome.code]
end

section
/-!
PROOF. The turns of the three agents: what passes, what is refused, and what a turn runs (O3, O6, O7, O12); the commands
while an interrupt is pending (O33); the raise of an event word (O34), and one event raised and served (O55).
-/
namespace Sys2Proof.Machine
open Sys2Proof.Safety

/-! ## Turns that pass, run or are refused -/

/-- A `SEQ` turn always completes; `60_exceptions.md` R203, R204. -/
theorem seqTurn_eq (s : State) : seqTurn s = .next (if irq s then seqInvoke s else s) := by
  unfold seqTurn
  split <;> rfl

theorem lineTurn_disarmed {s : State} (ha : armed s = false) : lineTurn s = .next s := by
  unfold lineTurn
  split
  · rfl
  · exact if_pos (by rw [lineEnabled, ha]; rfl)

theorem lineTurn_refused {s : State} {w : BitVec 24} {words : List (BitVec 24)} {r : Reject} (ha : armed s = true)
    (hw : s.lineIn = w :: words) (hd : decodeEvent w = .error r) : lineTurn s = .refused (refusalOf r) := by
  simp [lineTurn, hw, hd, lineEnabled, ha]

theorem regTurn_refused {s : State} {r : Reject} (hne : s.regIn ≠ []) (hd : decodeAccess s.regIn = .error r) :
    regTurn s = .refused (refusalOf r) := by
  simp [regTurn, hne, hd]

/-! ## The raise of an event word -/

theorem lineRaise_disarmed {bits : BitVec 16} {rxd : Byte} {s : State} (ha : armed s = false) :
    lineRaise bits rxd s = .fault .lineHasNoStep := by
  simp [lineRaise, lineEnabled, ha]

/-- The status bits that make the peripheral ready lie within an event word; `60_exceptions.md` R201. -/
theorem readyMask_word (bits : BitVec 16) :
    (bits.setWidth 32 &&& Config.layout.readyMask = 0#32) ↔ bits &&& 0x1B80#16 = 0#16 := by
  have hmask : bits.setWidth 32 &&& Config.layout.readyMask = (bits &&& 0x1B80#16).setWidth 32 := by
    rw [BitVec.setWidth_and]; rfl
  rw [hmask]
  refine ⟨fun h => ?_, fun h => by rw [h]; rfl⟩
  have hback := congrArg (BitVec.setWidth 16) h
  simpa using hback

/-- The state a raise leaves, with the ready bits looked for in the word itself; `60_exceptions.md` R201. -/
theorem raised_eq (bits : BitVec 16) (rxd : Byte) (s : State) :
    raised bits rxd s = { s with
      isr := s.isr ||| bits.setWidth 32
      rxdr := if bits.getLsbD 0 then rxd.setWidth 32 else s.rxdr
      txrdy := s.txrdy || decide (bits &&& 0x1B80#16 ≠ 0#16) } := by
  have hready : (if (bits.setWidth 32 &&& Config.layout.readyMask) != 0#32 then true else s.txrdy) =
      (s.txrdy || decide (bits &&& 0x1B80#16 ≠ 0#16)) := by
    by_cases h : bits &&& 0x1B80#16 = 0#16
    · simp [(readyMask_word bits).mpr h, h]
    · simp [mt (readyMask_word bits).mp h, h]
  rw [raised, hready]
  rfl

/-- Each `E` row raises a legal word on an armed block; `60_exceptions.md` R201. -/
theorem exec_ofEvent_raises (e : Event) {bits : BitVec 16} {rxd : Byte} {s : State} (ha : armed s = true)
    (hl : legalEvent bits rxd = true) : exec (Instr.ofEvent e bits rxd) s = .next (raised bits rxd s) :=
  (exec_ofEvent e bits rxd s).trans (lineRaise_eq_next.mpr ⟨ha, hl, rfl⟩)

theorem exec_ofEvent_disarmed (e : Event) {bits : BitVec 16} {rxd : Byte} {s : State} (ha : armed s = false) :
    exec (Instr.ofEvent e bits rxd) s = .fault .lineHasNoStep :=
  (exec_ofEvent e bits rxd s).trans (lineRaise_disarmed ha)

/-! ## One event served -/

/-- In a cell with a transition no fault is recorded, as long as a byte request meets a ready peripheral;
`60_exceptions.md` R208, `43_transmit_events.md` R163. -/
theorem handle_faults_of_transition {e : Event} {s : State} (ht : transition s.phase e = true)
    (hr : e = .txbr → s.txrdy = true) : (handle e s).faults = s.faults := by
  have heff := handle_effect e s
  generalize handle e s = t at heff ⊢
  cases heff with
  | ignored _ hv => exact nomatch ht.symm.trans hv
  | txFails => rw [txError_eq]
  | rxFails | rxStarts | rxByte | rxDiscards | txEnds => rfl
  | rxDelivers => rw [setPhase_faults, deliver_eq]
  | txByte => rw [setPhase_faults, writeReg, writeTxdr_ready (hr rfl)]; rfl

end Sys2Proof.Machine

open Sys2Proof Sys2Proof.Machine Sys2Proof.Safety

/-- Settles O3: the turn is used up, and the `HOST` turn itself passes, for the pending interrupt or for its commands. -/
theorem hostCommandsWait : Obligations.HostCommandsWait :=
  ⟨fun _ _ ht hirq => (step_agentTurn ht).trans (hostTurn_preempted hirq),
    fun _ _ ht hwait => (step_agentTurn ht).trans (hostTurn_allWait hwait)⟩

/-- Settles O6: the guard `EN = 1` is looked at before the word, in the turn and in each of the eleven rows. -/
theorem lineHasNoStepWhileDisarmed : Obligations.LineHasNoStepWhileDisarmed := by
  refine ⟨fun _ _ ht ha => (step_agentTurn ht).trans (lineTurn_disarmed ha), fun s bits rxd ha => ?rows⟩
  case rows =>
    have hrow (e : Event) := exec_ofEvent_disarmed e (bits := bits) (rxd := rxd) ha
    exact ⟨hrow .rxbr, hrow .rxend, hrow .bre, hrow .sbpe, hrow .lbpe, hrow .arblst, hrow .txbr, hrow .txend,
      hrow .txerr, hrow .txacke, hrow .rxstart⟩

/-- Settles O7: with a `SEQ` turn scheduled or none at all, the step is a `SEQ` turn. -/
theorem sequencerRunsExactlyOnIrq : Obligations.SequencerRunsExactlyOnIrq := by
  refine ⟨fun _ _ ht => (step_agentTurn ht).trans (seqTurn_eq _), fun s ht => ?_⟩
  rw [step, nextTurn, ht]
  exact seqTurn_eq s

/-- Settles O12: agent by agent, each refused by its own decoder. -/
theorem fetchRefusesByName : Obligations.FetchRefusesByName := by
  refine ⟨?host, ?line, ?reg⟩
  case host =>
    intro s turns waiting own ht hirq hin hne hwait hd
    rw [step_agentTurn ht]
    exact hostTurn_refused (s := { s with turns := turns }) hirq hin hne hwait hd
  case line =>
    intro s turns w words ht hin ha hd
    rw [step_agentTurn ht]
    exact lineTurn_refused (s := { s with turns := turns }) ha hin hd
  case reg =>
    intro s turns ht hne hd
    rw [step_agentTurn ht]
    exact regTurn_refused (s := { s with turns := turns }) hne hd

/-- Settles O33: each of the six is a `HOST` step, which waits. -/
theorem noHostStepWhileInterruptPending : Obligations.NoHostStepWhileInterruptPending := fun _ hirq =>
  ⟨fun _ => by rw [exec, execArm, hostStep_waiting hirq], by rw [exec, execDisarm, hostStep_waiting hirq],
    fun _ => by rw [exec, execTransmit, hostStep_waiting hirq], by rw [exec, execTxwait, hostStep_waiting hirq],
    by rw [exec, execReceive, hostStep_waiting hirq], by rw [exec, execLastError, hostStep_waiting hirq]⟩

/-- Settles O34: the eleven rows have one effect, and the word says what it is. -/
theorem lineRaiseSetsStatus : Obligations.LineRaiseSetsStatus := by
  intro s bits rxd ha hl t
  have hrow (e : Event) : exec (Instr.ofEvent e bits rxd) s = .next t :=
    (exec_ofEvent_raises e ha hl).trans (congrArg _ (raised_eq bits rxd s))
  exact ⟨hrow .rxbr, hrow .rxend, hrow .bre, hrow .sbpe, hrow .lbpe, hrow .arblst, hrow .txbr, hrow .txend,
    hrow .txerr, hrow .txacke, hrow .rxstart⟩

/-- Settles O55: the raise of a byte request itself makes the peripheral ready, so a cell with a transition records no
fault, and in any other cell the event is a violation. -/
theorem violationsAreExactlyThePVCells : Obligations.ViolationsAreExactlyThePVCells := by
  intro s e rxd turns words ht hw hx ha hier hisr
  refine ⟨_, runs_served ht hw hx ha hier hisr 0, fun hT => ?transition, fun hV => handle_violation hV⟩
  case transition =>
    refine handle_faults_of_transition hT fun he => ?_
    rw [he]
    exact Bool.or_true _
end

section
/-!
PROOF. Sequencer invocations: what none of them changes (O36), snapshots of several events (O45 to O48), and the `HOST`
commands whose hold an invocation lifts (O5).
-/
namespace Sys2Proof.Machine
open Sys2Proof.Safety

/-! ## What an invocation never changes -/

theorem seqInvoke_sameBus (s : State) : SameBus (cleared s) (seqInvoke s) := by
  rw [seqInvoke_eq]
  exact dispatchEvents_sameBus _ _

theorem SameBus.eq_with {s t : State} (h : SameBus s t) :
    t = { t with
      cr := s.cr, cfgr := s.cfgr, rxdr := s.rxdr, ier := s.ier, isr := s.isr
      results := s.results, turns := s.turns, hostIn := s.hostIn, lineIn := s.lineIn, regIn := s.regIn } := by
  obtain ⟨hcr, hcfgr, hrxdr, hisr, hier, hresults, hturns, hhost, hline, hreg⟩ := h
  rw [← hcr, ← hcfgr, ← hrxdr, ← hisr, ← hier, ← hresults, ← hturns, ← hhost, ← hline, ← hreg]

/-- The taken bits cleared, no bit is left that is pending, enabled and defined; `60_exceptions.md` R203, R204. -/
theorem irq_of_sameBus_cleared {s t : State} (hdef : (s.isr &&& s.ier) &&& ~~~0x00003BBB#32 = 0#32)
    (h : SameBus (cleared s) t) : irq t = false := by
  have hleft : (cleared s).isr &&& s.ier = 0#32 := by
    simp only [cleared]
    rw [(legal_iff _ _).mp hdef, BitVec.and_assoc, BitVec.and_comm _ s.ier, ← BitVec.and_assoc]
    simp
  have hier : t.ier = s.ier := h.ier
  rw [irq, h.isr, hier, hleft]
  rfl

/-! ## A snapshot of several events -/

/-- The progress bits of a snapshot in their order, those of a receive dropped if `rx`, those of a transmit if `tx`;
`60_exceptions.md` R205, R206. -/
def progressBits (taken : Word) (rx tx : Bool) (s : State) : State :=
  progressBit taken tx .txend (progressBit taken tx .txbr
    (progressBit taken rx .rxend (progressBit taken rx .rxbr (progressBit taken false .rxstart s))))

/-- A snapshot is handled class by class: what the two error classes leave is what the progress bits meet. -/
theorem dispatchEvents_of_classes {taken : Word} {s t u : State} {tx rx : Bool}
    (htx : errorClass taken .transmitting [.arblst, .txacke, .txerr] s = (t, tx))
    (hrx : errorClass taken .receiving [.bre, .sbpe, .lbpe] t = (u, rx)) :
    dispatchEvents taken s = progressBits taken rx tx u := by
  simp only [dispatchEvents, htx, hrx, progressBits]

/-- The snapshot of an invocation, if it is known; `60_exceptions.md` R204. -/
theorem seqInvoke_snapshot {s : State} {w : Word} (h : s.isr &&& s.ier &&& 0x00003BBB#32 = w) :
    seqInvoke s = dispatchEvents w (cleared s) := by
  rw [seqInvoke_eq, h]

/-- An invocation that takes no error bit handles its progress bits only. -/
theorem seqInvoke_progress {s : State} {w : Word} (h : s.isr &&& s.ier &&& 0x00003BBB#32 = w)
    (hnone : ∀ e ∈ [Event.arblst, .txacke, .txerr, .bre, .sbpe, .lbpe], hasEvent w e = false) :
    seqInvoke s = progressBits w false false (cleared s) := by
  rw [seqInvoke_snapshot h]
  exact dispatchEvents_of_classes
    (errorClass_untaken fun e he => hnone e (List.mem_append_left [Event.bre, .sbpe, .lbpe] he))
    (errorClass_untaken fun e he => hnone e (List.mem_append_right [Event.arblst, .txacke, .txerr] he))

theorem progressBits_rxbr_rxend (s : State) :
    progressBits 0x00000003#32 false false s = handle .rxend (handle .rxbr s) := rfl

theorem progressBits_rxstart_rxbr_rxend (s : State) :
    progressBits 0x00002003#32 false false s = handle .rxend (handle .rxbr (handle .rxstart s)) := rfl

theorem progressBits_txbr_txend (s : State) :
    progressBits 0x00000300#32 false false s = handle .txend (handle .txbr s) := rfl

theorem violations_append (st : SeqState) (es fs : List Event) (w : Word) :
    violations st (es ++ fs) w = violations st es w ++ violations st fs w := by
  simp [violations]

/-- Faults recorded one after the other, and nothing else; `60_exceptions.md` R214. -/
def recordAll (fs : List RecordedFault) (s : State) : State := { s with faults := s.faults ++ fs }

theorem recordAll_recordAll (fs gs : List RecordedFault) (s : State) :
    recordAll gs (recordAll fs s) = recordAll (fs ++ gs) s := by
  simp [recordAll]

theorem st_recordAll (fs : List RecordedFault) (s : State) : (recordAll fs s).st = s.st := rfl

section ignored
variable {w : Word} {s : State}

/-- A progress bit in a cell with no transition is a violation if it is taken. -/
theorem progressBit_violation {e : Event} (h : transition s.phase e = false) :
    progressBit (w &&& Config.evmask) false e s = recordAll (violations s.st [e] w) s := by
  rw [progressBit_evmask, violations_cons, violations_nil, List.append_nil]
  cases w.getLsbD e.bit with
  | true => exact handle_violation h
  | false => simp [recordAll]

theorem progressBit_pair_violations {e f : Event} (he : transition s.phase e = false)
    (hf : transition s.phase f = false) :
    progressBit (w &&& Config.evmask) false f (progressBit (w &&& Config.evmask) false e s) =
      recordAll (violations s.st [e, f] w) s := by
  rw [progressBit_violation he, progressBit_violation (s := recordAll _ s) hf, st_recordAll, recordAll_recordAll,
    ← violations_append, List.singleton_append]

/-- The error bits of a snapshot met in `Idle` are each a violation, in their order; `60_exceptions.md` R205, R207. -/
theorem dispatchEvents_errors_idle (hp : s.phase = .idle) :
    dispatchEvents (w &&& Config.evmask) s =
      progressBits (w &&& Config.evmask) false false
        (recordAll (violations .idle [.arblst, .txacke, .txerr, .bre, .sbpe, .lbpe] w) s) := by
  have hst : s.st = .idle := st_eq_idle_iff.mpr hp
  have htx := errorClass_violations (w := w) (ends := .transmitting) (es := [.arblst, .txacke, .txerr]) (s := s)
    (by rw [hst]; nofun) (by simp [hp, transition])
  have hrx := errorClass_violations (w := w) (ends := .receiving) (es := [.bre, .sbpe, .lbpe])
    (s := recordAll (violations s.st [.arblst, .txacke, .txerr] w) s)
    (by rw [st_recordAll, hst]; nofun) (by simp [recordAll, hp, transition])
  refine (dispatchEvents_of_classes htx hrx).trans (congrArg _ ?_)
  refine (recordAll_recordAll _ _ s).trans ?_
  rw [st_recordAll, hst, ← violations_append]
  rfl

end ignored

/-! ## A frame that ends within a snapshot -/

section frame
variable {s : State} {rx : RxState}

/-- `s` after the end of a receive of `f`: delivered if it is matched, else ignored; `42_receive_events.md` R145. -/
def receiveEnded (f : Frame) (matched : Bool) (s : State) : State :=
  { s with
    phase := .idle
    rxq := if matched then channelAfter s.rxq f else s.rxq
    trace := s.trace ++ if matched then deliveryLabels s.rxq f else [.frameIgnored] }

theorem handle_rxend_ends (hp : s.phase = .receiving rx) (hb : rx.buf ≠ []) :
    handle .rxend s = receiveEnded rx.buf rx.matched s := by
  cases hm : rx.matched with
  | true => rw [handle_rxend_matched hp hb hm, deliver_eq]; rfl
  | false => rw [handle_rxend_unmatched hp hb hm]; rfl

theorem extend_one (cfgr v : Word) (rx : RxState) :
    rx.extend cfgr [lowByte v] =
      { buf := rx.buf ++ [v.extractLsb' 0 8]
        matched := if rx.buf = [] then accept cfgr (v.extractLsb' 0 4) else rx.matched } := by
  rw [← dst_lowByte]
  rfl

/-- A byte and the end of the frame in one snapshot: the byte is in the frame; `60_exceptions.md` R209 (b). -/
theorem handle_rxbr_rxend (hp : s.phase = .receiving rx) (hc : rx.buf.length < 16) :
    handle .rxend (handle .rxbr s) =
      receiveEnded (rx.buf ++ [s.rxdr.extractLsb' 0 8])
        (if rx.buf = [] then accept s.cfgr (s.rxdr.extractLsb' 0 4) else rx.matched) s := by
  rw [handle_rxbr_room hp hc, extend_one,
    handle_rxend_ends (s := setPhase _ s) (rx := { buf := rx.buf ++ [_], matched := _ }) rfl (by simp)]
  rfl

/-- A start, a byte and the end in one snapshot are a whole frame; `60_exceptions.md` R209 (f). -/
theorem handle_rxstart_rxbr_rxend (hp : s.phase = .idle) :
    handle .rxend (handle .rxbr (handle .rxstart s)) =
      receiveEnded [s.rxdr.extractLsb' 0 8] (accept s.cfgr (s.rxdr.extractLsb' 0 4)) s := by
  rw [handle_rxstart_idle hp,
    handle_rxbr_rxend (s := setPhase _ s) (rx := { buf := [], matched := false }) rfl (by decide)]
  rfl

end frame

/-! ## A snapshot with an error of the attempt in progress -/

section superseded
variable {s : State}

/-- The block once the transmit in progress has failed and the receive errors of the snapshot `w` were met in `Idle`;
`43_transmit_events.md` R165, `60_exceptions.md` R206. -/
def transmitFailed (k : TxErrorKind) (w : Word) (s : State) : State :=
  { s with
    phase := .idle
    txDone := some (.err k)
    lastError := some k.kind
    trace := s.trace ++ [.txFailed k.kind]
    faults := s.faults ++ violations .idle [.bre, .sbpe, .lbpe] w }

/-- With a transmit error the transmit progress is dropped; the receive progress is not; `60_exceptions.md` R206. -/
theorem seqInvoke_txError {tx : TxState} {k : TxErrorKind} (hp : s.phase = .transmitting tx)
    (hk : firstTxError (s.isr &&& s.ier) = some k) :
    seqInvoke s = progressBits (s.isr &&& s.ier &&& Config.evmask) false true
      (transmitFailed k (s.isr &&& s.ier) (cleared s)) := by
  rw [seqInvoke_eq]
  refine dispatchEvents_of_classes (errorClass_transmit (s := cleared s) hp hk) ?_
  rw [txError_eq]
  exact errorClass_violations nofun (by simp [transition])

/-- The block once the transmit errors of the snapshot `w` were met in `Receiving` and the receive in progress has
failed; `42_receive_events.md` R150, `60_exceptions.md` R206. -/
def receiveFailed (k : BusErrorKind) (w : Word) (s : State) : State :=
  { s with
    phase := .idle
    lastError := some k
    trace := s.trace ++ [.receiveFailed k]
    faults := s.faults ++ violations .receiving [.arblst, .txacke, .txerr] w }

/-- With a receive error the receive progress is dropped; the transmit progress is not; `60_exceptions.md` R206. -/
theorem seqInvoke_rxError {rx : RxState} {k : BusErrorKind} (hp : s.phase = .receiving rx)
    (hk : firstRxError (s.isr &&& s.ier) = some k) :
    seqInvoke s = progressBits (s.isr &&& s.ier &&& Config.evmask) true false
      (receiveFailed k (s.isr &&& s.ier) (cleared s)) := by
  have hst : (cleared s).st = .receiving := st_of_receiving (s := cleared s) hp
  rw [seqInvoke_eq]
  refine dispatchEvents_of_classes
    (errorClass_violations (by rw [hst]; nofun) (by simp [cleared, hp, transition])) ?_
  rw [hst]
  exact errorClass_receive hp hk

end superseded

/-! ## A hold lifted by an invocation -/

section lifted
variable {s : State} {e : Event}

theorem takesOnly_of_pending (h : s.isr &&& s.ier = 1#32 <<< e.bit) : takesOnly e s := by
  rw [takesOnly, h]
  cases e <;> decide

/-- With one event pending and enabled, handling it leaves no interrupt pending. -/
theorem irq_handle_pending (h : s.isr &&& s.ier = 1#32 <<< e.bit) : irq (handle e (cleared s)) = false := by
  refine irq_of_sameBus_cleared ?_ (handle_sameBus e _)
  rw [h]
  cases e <;> decide

/-- A `SEQ` turn with one event pending and enabled handles it; `60_exceptions.md` R204. -/
theorem step_pending {turns : List Agent} (ht : s.turns = .seq :: turns) (h : s.isr &&& s.ier = 1#32 <<< e.bit) :
    step s = .next ((handle e (cleared s)).withInputs turns s.hostIn s.lineIn s.regIn) :=
  (step_takesOnly ht (takesOnly_of_pending h)).trans
    (congrArg _ (handle_withInputs turns s.hostIn s.lineIn s.regIn (cleared s) e))

/-- The invocation that fills the slot lets the `TXWAIT` first in line take the outcome in the `HOST` turn after it;
`60_exceptions.md` R216, `44_host_api.md` R182. -/
theorem runs_invocation_txwait {turns : List Agent} {rest : List Byte} {r : TxOutcome}
    (ht : s.turns = .seq :: .host :: turns) (hin : s.hostIn = 0x04#8 :: rest) (h : s.isr &&& s.ier = 1#32 <<< e.bit)
    (hd : (handle e (cleared s)).txDone = some r) :
    ∃ t, runs 2 s = .next t ∧ t.hostIn = rest ∧ t.txDone = none ∧ t.results = s.results ++ [.host [r.code]] :=
  ⟨_, runs_two (step_pending ht h) (step_txwait_outcome rfl (irq_handle_pending h) hin hd), rfl, rfl,
    congrArg (· ++ [Answer.host [r.code]]) (handle_sameBus e (cleared s)).results⟩

/-- The result codes of the transmit errors; `30_encoding.md` R98. -/
theorem txErrors_code {e : Event} {c : Byte}
    (h : (e, c) ∈ [(Event.arblst, 0x14#8), (.txacke, 0x15#8), (.txerr, 0x16#8)]) :
    ∃ k, (e, k) ∈ txErrors ∧ TxOutcome.code (.err k) = c := by
  obtain ⟨rfl, rfl⟩ | ⟨rfl, rfl⟩ | ⟨rfl, rfl⟩ : (e = .arblst ∧ c = 0x14#8) ∨
    (e = .txacke ∧ c = 0x15#8) ∨ (e = .txerr ∧ c = 0x16#8) := by simpa using h
  · exact ⟨.arbitrationLost, by simp [txErrors], rfl⟩
  · exact ⟨.ackFailure, by simp [txErrors], rfl⟩
  · exact ⟨.lineError, by simp [txErrors], rfl⟩

/-- With a frame in the channel, the `HOST` turn of a `RECEIVE` first in line takes it; `44_host_api.md` R183. -/
theorem step_receive_oldest {turns : List Agent} {rest : List Byte} {f : Frame} {q : List Frame}
    (ht : s.turns = .host :: turns) (hirq : irq s = false) (hin : s.hostIn = 0x05#8 :: rest) (hq : s.rxq = f :: q) :
    step s = .next { s with
      turns := turns, hostIn := rest, rxq := q, results := s.results ++ [received f] } :=
  (step_command (waiting := []) ht hirq hin nofun (decodeHost_receive rest) (by simp [waits, hq])).trans
    (exec_receive_oldest hirq hq)

/-- The invocation that delivers a frame to an empty channel lets the `RECEIVE` first in line take it;
`60_exceptions.md` R216, `44_host_api.md` R183. -/
theorem runs_invocation_receive {turns : List Agent} {rest : List Byte} {f : Frame}
    (ht : s.turns = .seq :: .host :: turns) (hin : s.hostIn = 0x05#8 :: rest) (h : s.isr &&& s.ier = 1#32 <<< e.bit)
    (hq : (handle e (cleared s)).rxq = [f]) :
    ∃ t, runs 2 s = .next t ∧ t.hostIn = rest ∧ t.rxq = [] ∧ t.results = s.results ++ [received f] :=
  ⟨_, runs_two (step_pending ht h) (step_receive_oldest rfl (irq_handle_pending h) hin hq), rfl, rfl,
    congrArg (· ++ [received f]) (handle_sameBus e (cleared s)).results⟩

/-- A delivery to an empty channel leaves the frame alone in it, whatever the capacity; `42_receive_events.md` R146. -/
theorem channelAfter_empty (f : Frame) : channelAfter [] f = [f] := by
  simp [channelAfter]

end lifted

end Sys2Proof.Machine

open Sys2Proof Sys2Proof.Machine Sys2Proof.Safety

/-- Settles O36: the clear is the only write of `ISR`, and no event handled reaches what is listed. -/
theorem sequencerClearsExactlyWhatItTakes : Obligations.SequencerClearsExactlyWhatItTakes := fun s =>
  (seqInvoke_sameBus s).eq_with

/-- Settles O45: the transmit has failed before the receive bits are looked at, which are then handled from `Idle`. -/
theorem transmitErrorSupersedesProgress : Obligations.TransmitErrorSupersedesProgress := by
  intro s tx k hp hk w b m t
  have hseq : seqInvoke s = progressBit (w &&& Config.evmask) false .rxend
      (progressBit (w &&& Config.evmask) false .rxbr (progressBit (w &&& Config.evmask) false .rxstart t)) := by
    rw [seqInvoke_txError hp hk, progressBits, progressBit_superseded, progressBit_superseded]
    rfl
  have htaken {e : Event} {v : Bool} (h : w.getLsbD e.bit = v) : hasEvent (w &&& Config.evmask) e = v :=
    (hasEvent_evmask w e).trans h
  refine ⟨fun h13 => ?noStart, fun h13 h0 => ?startAlone, fun h13 h0 h1 => ?startAndByte, fun h13 h0 h1 => ?frame⟩
  case noStart =>
    rw [hseq, progressBit_untaken (e := .rxstart) (htaken h13)]
    exact progressBit_pair_violations rfl rfl
  case startAlone =>
    rw [hseq, progressBit_taken (e := .rxstart) (htaken h13), handle_rxstart_idle rfl,
      progressBit_untaken (e := .rxbr) (htaken h0)]
    exact progressBit_violation rfl
  case startAndByte =>
    rw [hseq, progressBit_taken (e := .rxstart) (htaken h13), handle_rxstart_idle rfl,
      progressBit_taken (e := .rxbr) (htaken h0), progressBit_untaken (e := .rxend) (htaken h1),
      handle_rxbr_room (rx := { buf := [], matched := false }) rfl (by decide), extend_one]
    rfl
  case frame =>
    rw [hseq, progressBit_taken (e := .rxstart) (htaken h13), progressBit_taken (e := .rxbr) (htaken h0),
      progressBit_taken (e := .rxend) (htaken h1), handle_rxstart_rxbr_rxend rfl]
    rfl

/-- Settles O46: the receive has failed before the progress bits are looked at; the transmit progress meets `Receiving`
if a receive was started again and `Idle` if not, and is a violation in both. -/
theorem receiveErrorSupersedesProgress : Obligations.ReceiveErrorSupersedesProgress := by
  intro s rx k hp hk w restarted
  have hseq : seqInvoke s = progressBit (w &&& Config.evmask) false .txend
      (progressBit (w &&& Config.evmask) false .txbr
        (progressBit (w &&& Config.evmask) false .rxstart (receiveFailed k w (cleared s)))) := by
    rw [seqInvoke_rxError hp hk, progressBits, progressBit_superseded, progressBit_superseded]
  have hstart : hasEvent (w &&& Config.evmask) .rxstart = restarted := hasEvent_evmask w .rxstart
  rw [hseq]
  cases hr : restarted with
  | true =>
    rw [progressBit_taken (hstart.trans hr), handle_rxstart_idle rfl]
    exact progressBit_pair_violations rfl rfl
  | false =>
    rw [progressBit_untaken (hstart.trans hr)]
    exact progressBit_pair_violations rfl rfl

/-- Settles O47: none of the three snapshots holds an error bit, and each is handled bit by bit in the order of a frame. -/
theorem progressOfOneSnapshotInOrder : Obligations.ProgressOfOneSnapshotInOrder := by
  refine ⟨?byteAndEnd, ?wholeFrame, ?lastByte⟩
  case byteAndEnd =>
    intro s rx hp hc h f m
    rw [seqInvoke_progress h (by decide), progressBits_rxbr_rxend, handle_rxbr_rxend (s := cleared s) hp hc]
    rfl
  case wholeFrame =>
    intro s hp h f m
    rw [seqInvoke_progress h (by decide), progressBits_rxstart_rxbr_rxend,
      handle_rxstart_rxbr_rxend (s := cleared s) hp, receiveEnded, ← hp]
    rfl
  case lastByte =>
    intro s tx b hp hb hx hr h
    rw [seqInvoke_progress h (by decide), progressBits_txbr_txend, handle_txbr_ready (s := cleared s) hp hb hr,
      handle_txend_complete (s := byteSent tx b (cleared s)) (tx := tx.advance) rfl hx]
    simp [endTransmit, emit, setPhase, byteSent, cleared]

/-- Settles O48: a violation changes nothing but the recorded faults, so the bits after it meet the same state. -/
theorem violationsDoNotEndTheInvocation : Obligations.ViolationsDoNotEndTheInvocation := by
  refine ⟨?errorsInIdle, ?requestAndEnd⟩
  case errorsInIdle =>
    intro s hp h
    rw [seqInvoke_snapshot h]
    -- this word has the six error bits and no progress bit
    exact dispatchEvents_errors_idle (w := 0x000018B8#32) (s := cleared s) hp
  case requestAndEnd =>
    intro s tx hp hx h
    have hrequest : handle .txbr (cleared s) = violation .txbr (cleared s) :=
      handle_violation (transition_txbr_noByte (by simp [cleared, hp, hx]))
    rw [seqInvoke_progress h (by decide), progressBits_txbr_txend, hrequest,
      handle_txend_complete (s := violation .txbr (cleared s)) hp hx, violation,
      st_of_transmitting (s := cleared s) hp]
    rfl

/-- Settles O5: handling the one event taken fills the slot or the channel, and leaves no interrupt pending, so that the
command first in line no longer waits. -/
theorem sequencerLiftsTheHolds : Obligations.SequencerLiftsTheHolds := by
  refine ⟨?complete, ?failed, ?delivered, ?irq⟩
  case complete =>
    intro s tx turns rest ht hin hp hx _ h
    refine runs_invocation_txwait (e := .txend) (r := .ok) ht hin h ?_
    rw [handle_txend_complete (s := cleared s) hp hx, endTransmit_txDone]
  case failed =>
    intro s tx turns rest e k ht hin hp hmem h
    obtain ⟨kind, he, rfl⟩ := txErrors_code hmem
    refine runs_invocation_txwait (r := .err kind) ht hin h ?_
    rw [handle_txError (s := cleared s) he hp, txError_eq]
  case delivered =>
    intro s rx turns rest ht hin hp hb hm hq h
    refine runs_invocation_receive (e := .rxend) ht hin h ?_
    rw [handle_rxend_matched (s := cleared s) hp hb hm, setPhase_rxq, deliver_eq]
    exact (congrArg (channelAfter · rx.buf) hq).trans (channelAfter_empty rx.buf)
  case irq => exact fun s h => irq_of_sameBus_cleared (cleared_legal s.ier h) (seqInvoke_sameBus s)
end

section
/-!
PROOF. Repeated raises (O35), and the Configuration while armed: no operation and no step reaches it (O53).
-/
namespace Sys2Proof.Machine

/-! ## A raise after a raise -/

/-- A second raise of the same bits sets nothing the first did not set, and with `RXBR` overwrites the byte of the first;
`70_reset_and_hazards.md` R244. -/
theorem raised_raised (bits : BitVec 16) (x y : Byte) (s : State) :
    raised bits y (raised bits x s) = raised bits y s := by
  rw [raised_eq bits y, raised_eq bits x, raised_eq bits y s]
  congr 1
  case e_rxdr => dsimp only; split <;> rfl
  case e_isr => exact (BitVec.or_assoc ..).trans (congrArg _ (BitVec.or_self ..))
  case e_txrdy => exact (Bool.or_assoc ..).trans (congrArg _ (Bool.or_self _))

/-! ## What leaves the Configuration unchanged -/

section
variable {s t : State}

/-- While armed even a write of `CFGR` does not store; `40_register_ops.md` R113. -/
theorem writeReg_cfgr_of_armed (ha : armed s = true) (r : Reg) (v : Word) : (writeReg r v s).cfgr = s.cfgr := by
  cases r with
  | cr => exact writeCr_cfgr v s
  | cfgr => rw [writeReg, writeCfgr_armed ha, record_cfgr]
  | txdr => exact (writeTxdr_sameBus v s).cfgr
  | rxdr => rfl
  | isr => exact writeIsr_cfgr v s
  | ier => exact writeIer_cfgr v s

@[simp] theorem unprogram_cfgr (s : State) : (unprogram s).cfgr = s.cfgr := rfl

@[simp] theorem abortTransmit_cfgr (s : State) : (abortTransmit s).cfgr = s.cfgr := by rw [abortTransmit_eq]

@[simp] theorem seqInvoke_cfgr (s : State) : (seqInvoke s).cfgr = s.cfgr := (seqInvoke_sameBus s).cfgr

/-- Of the operations only `ARM` and a register write store to `CFGR`: the first is refused while armed, the second
faults. -/
theorem exec_cfgr_of_armed (ha : armed s = true) {i : Instr} (h : ExecEffect s i t) : t.cfgr = s.cfgr := by
  cases h with
  | preempted | held => rfl
  | armRejected | frameInvalid | transmitBusy | collects | receives | readsLatch | reads => rfl
  | raises => rfl
  | arms _ hn => exact nomatch ha.symm.trans hn
  | disarms => simp
  | transmitStarts => simp [startTransmit, writeReg_cfgr_of_armed ha]
  | writes r v => exact writeReg_cfgr_of_armed ha r v

theorem turn_cfgr_of_armed (ha : armed s = true) {raw : Prop} (h : TurnEffect raw s t) : t.cfgr = s.cfgr := by
  cases h with
  | passes => rfl
  | invokes => exact seqInvoke_cfgr s
  | runs i _ _ he => exact exec_cfgr_of_armed ha he

end

end Sys2Proof.Machine

open Sys2Proof Sys2Proof.Machine

/-- Settles O35: the `E` row raises on an armed block, and the second raise covers the first. -/
theorem repeatedRaisesMerge : Obligations.RepeatedRaisesMerge := by
  intro s bits x y hx hy ha
  refine ⟨raised bits x s, raised bits y s, exec_ofEvent_raises .rxbr ha hx, ?again, exec_ofEvent_raises .rxbr ha hy⟩
  case again =>
    rw [← raised_raised bits x y s]
    exact exec_ofEvent_raises (s := raised bits x s) .rxbr ha hy

/-- Settles O53: a step takes inputs, and then its turn leaves `CFGR` as it was; what `WR.CFGR` does is
`ConfigurationWrite`. -/
theorem configurationFrozenWhileArmed : Obligations.ConfigurationFrozenWhileArmed := by
  refine ⟨fun s t ha hstep => ?step, fun s v => (configurationWrite s v).2⟩
  case step =>
    obtain ⟨ts, hs, ls, rs, heff⟩ := step_effect hstep
    exact turn_cfgr_of_armed (s := s.withInputs ts hs ls rs) ha heff
end
